-- ==== Sys2Proof/Word.lean ====
section
/-!
DEFINITION. The word, the byte and the register number (`00_scope.md` R9, `30_encoding.md` R83).
-/

namespace Sys2Proof

/-- A Word (R9): "a 16-bit unsigned integer; the universal unit of storage, addressing, and
instruction encoding", with arithmetic modulo 2^16. -/
abbrev Word := BitVec 16

/-- A console byte, 0 to 255 (R33). -/
abbrev Byte := BitVec 8

/-- The number of a general register, 0 to 7 (R20, R83). -/
abbrev Reg := Fin 8

end Sys2Proof
end

