-- ==== Sys2Proof/Machine/Bits.lean ====
section
/-!
DEFINITION. Sign extension, zero extension and the two bytes of a Word (`00_scope.md` R10, R11).
-/

namespace Sys2Proof.Machine

/-- `sign_extend(value, bit_count)` as R11 writes it, for a value whose bits above `n - 1` are zero:
if bit `n - 1` is 1, all higher bits become 1; otherwise the value is unchanged. -/
def signExtend (value : Word) (n : Nat) : Word :=
  if value.getLsbD (n - 1) then value ||| (0xFFFF#16 <<< n) else value

/-- `sext_16(f)` (R11): `sign_extend` of an instruction field of width `n`. -/
def sext16 (f : BitVec n) : Word := signExtend (f.setWidth 16) n

/-- `zext_16(c)` of a console byte (R11; R53, R162, R166 and decision D16). -/
def zext16 (c : Byte) : Word := c.setWidth 16

/-- `w[7:0]`, the low byte of a Word (R10). -/
def lowByte (w : Word) : Byte := w.extractLsb' 0 8

/-- `w[15:8]`, the high byte of a Word (R10). -/
def highByte (w : Word) : Byte := w.extractLsb' 8 8

end Sys2Proof.Machine
end

