-- ==== Sys2Proof/Config.lean ====
section
/-!
DEFINITION. What is fixed for one machine of this hardware: the entry point, and the parameters that
`00_scope.md` rule R8 leaves OPEN, with the spec's defaults for them.
-/

namespace Sys2Proof.Config

/-- `PC_RESET` (R8, R40, R212): the fixed entry point. -/
def pcReset : Word := 0x3000

/-- `MEM_WORDS` (R8, R32): the number of cells of the one address space. -/
def memWords : Nat := 65536

/-- The two byte strings the document leaves open (R8): the text the IN service writes before it
reads, and the text the HALT service writes.  The machine takes them as an argument; they stand in
State (its field `par`), so a statement about every state is a statement about every text. -/
structure Params where
  /-- `IN_PROMPT` (R166, decision D5). -/
  inPrompt : List Byte
  /-- `HALT_NOTICE` (R168, decision D6). -/
  haltNotice : List Byte
  deriving DecidableEq, Repr

/-- The spec's default `IN_PROMPT`, the 19 bytes it lists in R166 (`Enter a character: `). -/
def defaultInPrompt : List Byte :=
  [0x45, 0x6E, 0x74, 0x65, 0x72, 0x20, 0x61, 0x20, 0x63, 0x68] ++
  [0x61, 0x72, 0x61, 0x63, 0x74, 0x65, 0x72, 0x3A, 0x20]

/-- The spec's default `HALT_NOTICE`, the 5 bytes it lists in R168 (`HALT` and a line feed). -/
def defaultHaltNotice : List Byte := [0x48, 0x41, 0x4C, 0x54, 0x0A]

/-- The defaults of R8.  DESIGN CHOICE (log entry 4): only `State.reset` uses them. -/
def defaultParams : Params := { inPrompt := defaultInPrompt, haltNotice := defaultHaltNotice }

/-- `IMAGE_OVERFLOW` (R8, R218): what the loader does with Words that do not fit below 0x10000.
An argument of the loader (log entry 13). -/
inductive ImageOverflow where
  /-- Drop them (the spec's default). -/
  | truncate
  /-- Store them from address 0x0000 on. -/
  | wrap
  deriving DecidableEq, Repr

end Sys2Proof.Config
end

