-- ==== Sys2Proof/Syntax.lean ====
section
/-!
DEFINITION. The instructions: one constructor for each of the 25 rows of `spec/opcode_table.json`, in
the table's order, with the fields that the row's rule reads (`30_encoding.md` R83 to R91).
-/

namespace Sys2Proof

/-- The instruction set.  Bits that R94 calls ignored are no field here; the three unimplemented rows
keep all their bits because the diagnostic event records the whole Word (R182, log entry 6). -/
inductive Instr where
  /-- BR (R120): condition mask `ir[11:9]` in the order n, z, p, and PCoffset9. -/
  | br (nzp : BitVec 3) (off : BitVec 9)
  /-- ADD, register form (R125). -/
  | addReg (dr sr1 sr2 : Reg)
  /-- ADD, immediate form (R126). -/
  | addImm (dr sr1 : Reg) (imm : BitVec 5)
  /-- LD (R135). -/
  | ld (dr : Reg) (off : BitVec 9)
  /-- ST (R145). -/
  | st (sr : Reg) (off : BitVec 9)
  /-- JSR (R152). -/
  | jsr (off : BitVec 11)
  /-- JSRR (R153). -/
  | jsrr (base : Reg)
  /-- AND, register form (R127). -/
  | andReg (dr sr1 sr2 : Reg)
  /-- AND, immediate form (R128). -/
  | andImm (dr sr1 : Reg) (imm : BitVec 5)
  /-- LDR (R137). -/
  | ldr (dr base : Reg) (off : BitVec 6)
  /-- STR (R147). -/
  | str (sr base : Reg) (off : BitVec 6)
  /-- RTI (R180), with `ir[11:0]`. -/
  | rti (low : BitVec 12)
  /-- NOT (R129). -/
  | not (dr sr : Reg)
  /-- LDI (R136). -/
  | ldi (dr : Reg) (off : BitVec 9)
  /-- STI (R146). -/
  | sti (sr : Reg) (off : BitVec 9)
  /-- JMP (R150); `jmp 7` is the return (R151). -/
  | jmp (base : Reg)
  /-- The reserved opcode (R181), with `ir[11:0]`. -/
  | res (low : BitVec 12)
  /-- LEA (R138). -/
  | lea (dr : Reg) (off : BitVec 9)
  /-- TRAP 0x20 (R162). -/
  | trapGetc
  /-- TRAP 0x21 (R163). -/
  | trapOut
  /-- TRAP 0x22 (R164). -/
  | trapPuts
  /-- TRAP 0x23 (R166). -/
  | trapIn
  /-- TRAP 0x24 (R167). -/
  | trapPutsp
  /-- TRAP 0x25 (R168). -/
  | trapHalt
  /-- TRAP with any other vector (R169), with `ir[11:8]` and the vector `ir[7:0]`. -/
  | trapUnknown (high : BitVec 4) (vect : BitVec 8)
  deriving DecidableEq, Repr

end Sys2Proof
end

