-- ==== Sys2Proof/Machine/State.lean ====
section
/-!
DEFINITION. The complete state of the machine as plain data (`10_state.md`, its head and R20 to R43),
the reasons a step can stop, and the state after reset.
-/

namespace Sys2Proof.Machine

/-- The three values of the condition-flag register COND (R24).  Kept as an enumeration, which R25
allows; the one-hot bits that BR tests are `Cond.bits` in Machine/Flags.lean (log entry 9). -/
inductive Cond where
  /-- POSITIVE. -/
  | pos
  /-- ZERO. -/
  | zro
  /-- NEGATIVE. -/
  | neg
  deriving DecidableEq, Repr

/-- The run state (R30). -/
inductive RunState where
  | running
  | halted
  deriving DecidableEq, Repr

/-- A console output event (R33). -/
inductive ConEvent where
  /-- One byte was written to the output sink. -/
  | write (b : Byte)
  /-- The output sink was flushed (R35; kept, log entry 8). -/
  | flush
  deriving DecidableEq, Repr

/-- The contents of the 65536 cells (R32): pairs of address and Word, addresses strictly rising, no
pair equal to what an unlisted cell reads as (`Memory.wf`, Machine/Ops.lean; log entry 1). -/
abbrev Memory := List (Nat × Word)

/-- The state of the machine: the tuple at the head of `10_state.md`, and the two open parameters. -/
structure State where
  /-- R0 to R7 (R20). -/
  regs : Vector Word 8
  /-- The program counter (R22). -/
  pc : Word
  /-- COND (R24). -/
  cond : Cond
  /-- The run state (R30). -/
  run : RunState
  /-- Memory, the keyboard cells 0xFE00 and 0xFE02 included (R32). -/
  mem : Memory
  /-- `con_in`: bytes that have arrived and were not yet consumed, oldest first (R33). -/
  conIn : List Byte
  /-- `con_out`: the console events emitted so far, oldest first (R33, R35). -/
  conOut : List ConEvent
  /-- `diag`: the Words of the unimplemented instructions executed so far, oldest first (R182). -/
  diag : List Word
  /-- The MODEL's own field: `IN_PROMPT` and `HALT_NOTICE` (R8, OPEN; log entry 4). -/
  par : Config.Params
  deriving DecidableEq, Repr

/-- Reasons to stop with a fault.  There are none: "The hardware raises no synchronous exception,
ever" (R185), and "the hardware cannot fault" (`93_implementation_defined.md` section 1). -/
inductive Fault where
  deriving DecidableEq, Repr

/-- Reasons to answer without a meaning. -/
inductive Refusal where
  /-- Raised only by an arm of `exec` whose instruction has no meaning yet; safe (the model stops where
  the hardware goes on).  No arm of this model raises it. -/
  | notModelled (mnemonic : String)
  deriving DecidableEq, Repr

/-- The state right after reset (R40, R41, R42, R210): R0 to R7 zero, `pc` at the entry point, COND ZERO,
RUNNING, every cell 0x0000, no output, no diagnostic event.  `conIn` is what the host has supplied: empty
here (log entry 5).  The parameters are the spec's defaults (log entry 4). -/
def State.reset : State where
  regs := Vector.replicate 8 0
  pc := Config.pcReset
  cond := .zro
  run := .running
  mem := []
  conIn := []
  conOut := []
  diag := []
  par := Config.defaultParams

end Sys2Proof.Machine
end

