-- ==== Sys2Proof/Machine/Ops.lean ====
section
/-!
DEFINITION. The named operations over memory, the keyboard cells, the registers, the console and the
diagnostic trace (`00_scope.md` R13, `10_state.md` R33, `20_memory.md` R53 to R56), and the fetch
(`40_execution_loop.md` R110).  The hardware takes no exception (R185) and a trap saves and restores
nothing (R190, R191), so there is no operation for taking or leaving one.
-/

namespace Sys2Proof.Machine

/-! ## The memory array (R32) -/

/-- What an unlisted cell reads as: 0x0000, the content of every cell after reset (R41, R210). -/
def unlisted : Word := 0x0000

/-- The Word a memory holds at an address. -/
def Memory.read : Memory → Nat → Word
  | [], _ => unlisted
  | (b, v) :: m, a => if a = b then v else Memory.read m a

/-- A pair in front of a memory, unless it says what an unlisted cell reads as anyway. -/
def Memory.cons (a : Nat) (v : Word) (m : Memory) : Memory :=
  if v = unlisted then m else (a, v) :: m

/-- The memory with one cell replaced; keeps the canonical form. -/
def Memory.write : Memory → Nat → Word → Memory
  | [], a, v => Memory.cons a v []
  | (b, w) :: m, a, v =>
    if a < b then Memory.cons a v ((b, w) :: m)
    else if a = b then Memory.cons a v m
    else (b, w) :: Memory.write m a v

/-- The canonical form: addresses strictly rising, each below 65536 (R32), and no pair equal to what an
unlisted cell reads as.  So equal contents are equal lists. -/
abbrev Memory.wf (m : Memory) : Prop :=
  m.Pairwise (fun x y => x.1 < y.1) ∧ ∀ c ∈ m, c.1 < Config.memWords ∧ c.2 ≠ unlisted

/-! ## The console (R33) -/

/-- `ConPoll()`: a character can be read without waiting. -/
def State.conPoll (s : State) : Bool := !s.conIn.isEmpty

/-- `ConRead()`: takes the first waiting byte; none when none is waiting. -/
def State.conRead (s : State) : Option (Byte × State) :=
  match s.conIn with
  | [] => none
  | c :: rest => some (c, { s with conIn := rest })

/-- `ConWrite(b)`. -/
def State.conWrite (s : State) (b : Byte) : State := { s with conOut := s.conOut ++ [.write b] }

/-- `ConWrite` of each byte of a list, in order. -/
def State.conWrites (s : State) (bs : List Byte) : State :=
  { s with conOut := s.conOut ++ bs.map .write }

/-- `ConFlush()`. -/
def State.conFlush (s : State) : State := { s with conOut := s.conOut ++ [.flush] }

/-! ## The keyboard cells and the two memory operations (R53 to R56) -/

/-- `KBD_STATUS` (R8, R36). -/
def kbdStatus : Word := 0xFE00

/-- `KBD_DATA` (R8, R36). -/
def kbdData : Word := 0xFE02

/-- `KBD_READY` (R8, decision D3). -/
def kbdReady : Word := 0x8000

/-- `MemWrite(a, 1, v)` (R55): a plain store at every address. -/
def State.memWrite (s : State) (a v : Word) : State := { s with mem := s.mem.write a.toNat v }

/-- The poll and latch of a read of KBD_STATUS (R53): a waiting byte is consumed, the status cell
becomes ready and the data cell gets the byte; with none waiting the status cell becomes 0x0000. -/
def State.pollKeyboard (s : State) : State :=
  match s.conRead with
  | some (c, s') => (s'.memWrite kbdStatus kbdReady).memWrite kbdData (zext16 c)
  | none => s.memWrite kbdStatus 0x0000

/-- `MemRead(a, 1)` (R53): the Word and the state after the read.  Only a read of KBD_STATUS changes
the state. -/
def State.memRead (s : State) (a : Word) : Word × State :=
  if a = kbdStatus then (s.pollKeyboard.mem.read a.toNat, s.pollKeyboard)
  else (s.mem.read a.toNat, s)

/-! ## Registers (R13, R20) -/

/-- `x[r]`. -/
def State.reg (s : State) (r : Reg) : Word := s.regs[r]

/-- `x[r] <- v`.  No register is hardwired (R20). -/
def State.setReg (s : State) (r : Reg) (v : Word) : State := { s with regs := s.regs.set r v }

/-- `pc <- t`. -/
def State.setPc (s : State) (t : Word) : State := { s with pc := t }

/-! ## The diagnostic event, the fetch, the wait -/

/-- `event Unimplemented(ir)` (R182): appends the instruction Word to `diag`. -/
def State.unimplemented (s : State) (ir : Word) : State := { s with diag := s.diag ++ [ir] }

/-- The fetch (R110, R111): the instruction Word, read by `MemRead` (R70), and the state with `pc`
incremented, modulo 2^16. -/
def State.fetch (s : State) : Word × State :=
  ((s.memRead s.pc).1, (s.memRead s.pc).2.setPc (s.pc + 1))

/-- The state of a core whose GETC or IN finds no input: it stays as it was before the fetch, with `pc`
at the instruction (R34: "While the core waits, no architectural state changes"; R116 form (a)).  The
fetch of a GETC or IN has no side effect, because a read of 0xFE00 returns neither; so this is the state
before the step (log entry 3). -/
def State.notYet (s : State) : State := s.setPc (s.pc - 1)

end Sys2Proof.Machine
end

