-- ==== Sys2Proof/Machine/Flags.lean ====
section
/-!
DEFINITION. The condition-flag register: what `setcc` computes (`10_state.md` R26), and the test of BR
(`41_branch.md` R120).
-/

namespace Sys2Proof.Machine

/-- The flag of a Word (R26): ZERO if it is 0, NEGATIVE if bit 15 is set, else POSITIVE. -/
def condOf (w : Word) : Cond :=
  if w = 0x0000 then .zro else if w.getLsbD 15 then .neg else .pos

/-- The one-hot value of COND (R25, decision D2): `FL_POS`, `FL_ZRO`, `FL_NEG`. -/
def condBits (c : Cond) : BitVec 3 :=
  match c with
  | .pos => 0b001
  | .zro => 0b010
  | .neg => 0b100

/-- The test of BR (R120): `(ir[11:9] & cond) != 0`. -/
def brTaken (nzp : BitVec 3) (c : Cond) : Bool := nzp &&& condBits c != 0

/-- `setcc(r)` (R26), from the present value of `x[r]`. -/
def State.setcc (s : State) (r : Reg) : State := { s with cond := condOf (s.reg r) }

/-- `x[r] <- v` and then `setcc(r)`: how every instruction that sets flags ends (R27). -/
def State.setRegCC (s : State) (r : Reg) (v : Word) : State := (s.setReg r v).setcc r

end Sys2Proof.Machine
end

