-- ==== Sys2Proof/Machine/Alu.lean ====
section
/-!
DEFINITION. ADD, AND, NOT (`42_alu.md`).  Sources are read before the destination is written (R125).
-/

namespace Sys2Proof.Machine

/-- ADD, register form (R125): `x[DR] <- x[SR1] + x[SR2]`, `setcc(DR)`. -/
def execAddReg (dr sr1 sr2 : Reg) (s : State) : Host.Outcome State Fault Refusal :=
  .next (s.setRegCC dr (s.reg sr1 + s.reg sr2))

/-- ADD, immediate form (R126): `x[DR] <- x[SR1] + sext_16(imm5)`, `setcc(DR)`. -/
def execAddImm (dr sr1 : Reg) (imm : BitVec 5) (s : State) : Host.Outcome State Fault Refusal :=
  .next (s.setRegCC dr (s.reg sr1 + sext16 imm))

/-- AND, register form (R127): `x[DR] <- x[SR1] & x[SR2]`, `setcc(DR)`. -/
def execAndReg (dr sr1 sr2 : Reg) (s : State) : Host.Outcome State Fault Refusal :=
  .next (s.setRegCC dr (s.reg sr1 &&& s.reg sr2))

/-- AND, immediate form (R128): `x[DR] <- x[SR1] & sext_16(imm5)`, `setcc(DR)`. -/
def execAndImm (dr sr1 : Reg) (imm : BitVec 5) (s : State) : Host.Outcome State Fault Refusal :=
  .next (s.setRegCC dr (s.reg sr1 &&& sext16 imm))

/-- NOT (R129): `x[DR] <- ~x[SR]`, `setcc(DR)`. -/
def execNot (dr sr : Reg) (s : State) : Host.Outcome State Fault Refusal :=
  .next (s.setRegCC dr (~~~ s.reg sr))

end Sys2Proof.Machine
end

