-- ==== Sys2Proof/Machine/Operands.lean ====
section
/-!
DEFINITION. The effective addresses of the operand forms (`30_encoding.md` R93).  In every one `pc` is
the incremented program counter (`40_execution_loop.md` R111) and sums are modulo 2^16 (R52).
-/

namespace Sys2Proof.Machine

/-- `pc + sext_16(PCoffset9)`: BR, LD, LDI, LEA, ST, STI. -/
def State.pcRel9 (s : State) (off : BitVec 9) : Word := s.pc + sext16 off

/-- `pc + sext_16(PCoffset11)`: JSR. -/
def State.pcRel11 (s : State) (off : BitVec 11) : Word := s.pc + sext16 off

/-- `x[BaseR] + sext_16(offset6)`: LDR, STR. -/
def State.baseOff6 (s : State) (base : Reg) (off : BitVec 6) : Word := s.reg base + sext16 off

end Sys2Proof.Machine
end

