-- ==== Sys2Proof/Machine/Branch.lean ====
section
/-!
DEFINITION. BR (`41_branch.md`).
-/

namespace Sys2Proof.Machine

/-- BR (R120): when the condition holds, `pc <- pc + sext_16(PCoffset9)`; otherwise nothing. -/
def execBr (nzp : BitVec 3) (off : BitVec 9) (s : State) : Host.Outcome State Fault Refusal :=
  .next (if brTaken nzp s.cond then s.setPc (s.pcRel9 off) else s)

end Sys2Proof.Machine
end

