-- ==== Sys2Proof/Machine/Jumps.lean ====
section
/-!
DEFINITION. JMP, JSR, JSRR (`45_jumps.md`).
-/

namespace Sys2Proof.Machine

/-- `x[7] <- pc`: the link both JSR and JSRR write first (R154). -/
def State.link (s : State) : State := s.setReg 7 s.pc

/-- JMP (R150): `pc <- x[BaseR]`. -/
def execJmp (base : Reg) (s : State) : Host.Outcome State Fault Refusal :=
  .next (s.setPc (s.reg base))

/-- JSR (R152): the link, then `pc <- pc + sext_16(PCoffset11)`. -/
def execJsr (off : BitVec 11) (s : State) : Host.Outcome State Fault Refusal :=
  .next (s.link.setPc (s.link.pcRel11 off))

/-- JSRR (R153): the link first; then `pc <- x[BaseR]`, read after the write of R7. -/
def execJsrr (base : Reg) (s : State) : Host.Outcome State Fault Refusal :=
  .next (s.link.setPc (s.link.reg base))

end Sys2Proof.Machine
end

