-- ==== Sys2Proof/Machine/Loads.lean ====
section
/-!
DEFINITION. LD, LDI, LDR, LEA (`43_loads.md`).  Every read is a `MemRead`, keyboard poll included.
-/

namespace Sys2Proof.Machine

/-- `x[DR] <- MemRead(a, 1)`, `setcc(DR)`: the end of every load. -/
def State.loadTo (s : State) (dr : Reg) (a : Word) : State :=
  (s.memRead a).2.setRegCC dr (s.memRead a).1

/-- LD (R135): loads from `pc + sext_16(PCoffset9)`. -/
def execLd (dr : Reg) (off : BitVec 9) (s : State) : Host.Outcome State Fault Refusal :=
  .next (s.loadTo dr (s.pcRel9 off))

/-- LDI (R136): the pointer is the Word at `pc + sext_16(PCoffset9)`; then loads from the pointer. -/
def execLdi (dr : Reg) (off : BitVec 9) (s : State) : Host.Outcome State Fault Refusal :=
  .next ((s.memRead (s.pcRel9 off)).2.loadTo dr (s.memRead (s.pcRel9 off)).1)

/-- LDR (R137): loads from `x[BaseR] + sext_16(offset6)`. -/
def execLdr (dr base : Reg) (off : BitVec 6) (s : State) : Host.Outcome State Fault Refusal :=
  .next (s.loadTo dr (s.baseOff6 base off))

/-- LEA (R138): `x[DR] <- pc + sext_16(PCoffset9)`, `setcc(DR)`; no memory access. -/
def execLea (dr : Reg) (off : BitVec 9) (s : State) : Host.Outcome State Fault Refusal :=
  .next (s.setRegCC dr (s.pcRel9 off))

end Sys2Proof.Machine
end

