-- ==== Sys2Proof/Machine/Stores.lean ====
section
/-!
DEFINITION. ST, STI, STR (`44_stores.md`).
-/

namespace Sys2Proof.Machine

/-- ST (R145): `MemWrite(pc + sext_16(PCoffset9), 1, x[SR])`. -/
def execSt (sr : Reg) (off : BitVec 9) (s : State) : Host.Outcome State Fault Refusal :=
  .next (s.memWrite (s.pcRel9 off) (s.reg sr))

/-- STI (R146): the pointer is read by `MemRead`, then the Word is written at the pointer. -/
def execSti (sr : Reg) (off : BitVec 9) (s : State) : Host.Outcome State Fault Refusal :=
  .next ((s.memRead (s.pcRel9 off)).2.memWrite (s.memRead (s.pcRel9 off)).1 (s.reg sr))

/-- STR (R147): `MemWrite(x[BaseR] + sext_16(offset6), 1, x[SR])`. -/
def execStr (sr base : Reg) (off : BitVec 6) (s : State) : Host.Outcome State Fault Refusal :=
  .next (s.memWrite (s.baseOff6 base off) (s.reg sr))

end Sys2Proof.Machine
end

