-- ==== Sys2Proof/WellFormed.lean ====
section
/-!
DEFINITION. Which terms of `Instr` stand for an instruction of the hardware.  Register numbers,
immediates, offsets and the mask are bounded by their types; the one relation left to check is that an
unknown trap vector is none of the six services (`30_encoding.md` R92, R95).
-/

namespace Sys2Proof

/-- The six vectors that name a service (R92, R160): 0x20 to 0x25. -/
def serviceVectors : List (BitVec 8) := [0x20, 0x21, 0x22, 0x23, 0x24, 0x25]

/-- A well-formed instruction: `trapUnknown` carries a vector outside 0x20 to 0x25 (R169). -/
def Instr.wf (i : Instr) : Bool :=
  match i with
  | .trapUnknown _ vect => !serviceVectors.contains vect
  | .br _ _ => true
  | .addReg _ _ _ => true
  | .addImm _ _ _ => true
  | .ld _ _ => true
  | .st _ _ => true
  | .jsr _ => true
  | .jsrr _ => true
  | .andReg _ _ _ => true
  | .andImm _ _ _ => true
  | .ldr _ _ _ => true
  | .str _ _ _ => true
  | .rti _ => true
  | .not _ _ => true
  | .ldi _ _ => true
  | .sti _ _ => true
  | .jmp _ => true
  | .res _ => true
  | .lea _ _ => true
  | .trapGetc => true
  | .trapOut => true
  | .trapPuts => true
  | .trapIn => true
  | .trapPutsp => true
  | .trapHalt => true

end Sys2Proof
end

