-- ==== Sys2Proof/Decode.lean ====
section
/-!
DEFINITION. The decoder (`30_encoding.md` R95), total over all Words, and the encoder written from the
same formats (R84 to R91) as the Words of R99; the opcode table of R92 and `spec/opcode_table.json` as
rows of mask and match.  No Word is rejected: "Every one of the 65536 Words selects exactly one row"
(R82).
-/

namespace Sys2Proof

/-! ## Fields (R83, R93) -/

/-- The opcode `ir[15:12]` (R81). -/
def opcodeField (ir : Word) : BitVec 4 := ir.extractLsb' 12 4

/-- `ir[11:9]`: DR of the loads and the ALU, SR of the stores (R83). -/
def drField (ir : Word) : Reg := (ir.extractLsb' 9 3).toFin

/-- `ir[8:6]`: SR1, SR of NOT, and BaseR (R83). -/
def sr1Field (ir : Word) : Reg := (ir.extractLsb' 6 3).toFin

/-- `ir[2:0]`: SR2 (R83). -/
def sr2Field (ir : Word) : Reg := (ir.extractLsb' 0 3).toFin

/-- `ir[11:9]` as the BR condition mask n, z, p (R84). -/
def nzpField (ir : Word) : BitVec 3 := ir.extractLsb' 9 3

/-- imm5, `ir[4:0]` (R93). -/
def imm5Field (ir : Word) : BitVec 5 := ir.extractLsb' 0 5

/-- offset6, `ir[5:0]` (R93). -/
def off6Field (ir : Word) : BitVec 6 := ir.extractLsb' 0 6

/-- PCoffset9, `ir[8:0]` (R93). -/
def off9Field (ir : Word) : BitVec 9 := ir.extractLsb' 0 9

/-- PCoffset11, `ir[10:0]` (R93). -/
def off11Field (ir : Word) : BitVec 11 := ir.extractLsb' 0 11

/-- trapvect8, `ir[7:0]` (R91). -/
def vectField (ir : Word) : BitVec 8 := ir.extractLsb' 0 8

/-- The immediate flag of ADD and AND, `ir[5]` (R81). -/
def immFlag (ir : Word) : Bool := ir.getLsbD 5

/-- The long-jump flag of JSR and JSRR, `ir[11]` (R90). -/
def longFlag (ir : Word) : Bool := ir.getLsbD 11

/-! ## The decoder (R95) -/

/-- The TRAP rows (R95, opcode 0xF): the service is selected by `ir[7:0]`. -/
def decodeTrap (ir : Word) : Instr :=
  match (vectField ir).toNat with
  | 0x20 => .trapGetc
  | 0x21 => .trapOut
  | 0x22 => .trapPuts
  | 0x23 => .trapIn
  | 0x24 => .trapPutsp
  | 0x25 => .trapHalt
  | _ => .trapUnknown (ir.extractLsb' 8 4) (vectField ir)

/-- The instruction of a Word (R95).  The last case is opcode 0xF. -/
def decode (ir : Word) : Instr :=
  match (opcodeField ir).toNat with
  | 0x0 => .br (nzpField ir) (off9Field ir)
  | 0x1 => if immFlag ir then .addImm (drField ir) (sr1Field ir) (imm5Field ir)
           else .addReg (drField ir) (sr1Field ir) (sr2Field ir)
  | 0x2 => .ld (drField ir) (off9Field ir)
  | 0x3 => .st (drField ir) (off9Field ir)
  | 0x4 => if longFlag ir then .jsr (off11Field ir) else .jsrr (sr1Field ir)
  | 0x5 => if immFlag ir then .andImm (drField ir) (sr1Field ir) (imm5Field ir)
           else .andReg (drField ir) (sr1Field ir) (sr2Field ir)
  | 0x6 => .ldr (drField ir) (sr1Field ir) (off6Field ir)
  | 0x7 => .str (drField ir) (sr1Field ir) (off6Field ir)
  | 0x8 => .rti (ir.extractLsb' 0 12)
  | 0x9 => .not (drField ir) (sr1Field ir)
  | 0xA => .ldi (drField ir) (off9Field ir)
  | 0xB => .sti (drField ir) (off9Field ir)
  | 0xC => .jmp (sr1Field ir)
  | 0xD => .res (ir.extractLsb' 0 12)
  | 0xE => .lea (drField ir) (off9Field ir)
  | _ => decodeTrap ir

/-- The instruction read from a Word numbered as `spec/opcode_table.json` numbers it: the bits of `w`
above `nbits` are 0, and an instruction is one Word (R80), so bit 0 of `w` is bit 0 of the Word.  Every
Word decodes (R82), so the answer is never none. -/
def decodeTableWord (nbits w : Nat) : Option Instr :=
  some (decode (BitVec.ofNat 16 (w % 2 ^ nbits)))

/-! ## The encoder -/

/-- A field of an instruction at its place: `f << lo` as a Word. -/
def fieldAt (f : BitVec n) (lo : Nat) : Word := f.setWidth 16 <<< lo

/-- A register field at its place: the register number in 3 bits (R83). -/
def regAt (r : Reg) (lo : Nat) : Word := fieldAt (BitVec.ofFin r : BitVec 3) lo

/-- The Word of an instruction, as the rule of each instruction writes it (R120 to R181), with the ignored
bits as the spec's listings set them (R99: NOT with ones, all others with zeros; log entry 11). -/
def encode (i : Instr) : Word :=
  match i with
  | .br nzp off => 0x0000 ||| fieldAt nzp 9 ||| fieldAt off 0
  | .addReg dr sr1 sr2 => 0x1000 ||| regAt dr 9 ||| regAt sr1 6 ||| regAt sr2 0
  | .addImm dr sr1 imm => 0x1020 ||| regAt dr 9 ||| regAt sr1 6 ||| fieldAt imm 0
  | .ld dr off => 0x2000 ||| regAt dr 9 ||| fieldAt off 0
  | .st sr off => 0x3000 ||| regAt sr 9 ||| fieldAt off 0
  | .jsr off => 0x4800 ||| fieldAt off 0
  | .jsrr base => 0x4000 ||| regAt base 6
  | .andReg dr sr1 sr2 => 0x5000 ||| regAt dr 9 ||| regAt sr1 6 ||| regAt sr2 0
  | .andImm dr sr1 imm => 0x5020 ||| regAt dr 9 ||| regAt sr1 6 ||| fieldAt imm 0
  | .ldr dr base off => 0x6000 ||| regAt dr 9 ||| regAt base 6 ||| fieldAt off 0
  | .str sr base off => 0x7000 ||| regAt sr 9 ||| regAt base 6 ||| fieldAt off 0
  | .rti low => 0x8000 ||| fieldAt low 0
  | .not dr sr => 0x903F ||| regAt dr 9 ||| regAt sr 6
  | .ldi dr off => 0xA000 ||| regAt dr 9 ||| fieldAt off 0
  | .sti sr off => 0xB000 ||| regAt sr 9 ||| fieldAt off 0
  | .jmp base => 0xC000 ||| regAt base 6
  | .res low => 0xD000 ||| fieldAt low 0
  | .lea dr off => 0xE000 ||| regAt dr 9 ||| fieldAt off 0
  | .trapGetc => 0xF020
  | .trapOut => 0xF021
  | .trapPuts => 0xF022
  | .trapIn => 0xF023
  | .trapPutsp => 0xF024
  | .trapHalt => 0xF025
  | .trapUnknown high vect => 0xF000 ||| fieldAt high 8 ||| fieldAt vect 0

/-! ## The opcode table (R92, R95) -/

/-- The mask of an instruction's row in `spec/opcode_table.json`: the bits that select the row. -/
def rowMask (i : Instr) : Word :=
  match i with
  | .addReg _ _ _ => 0xF020
  | .addImm _ _ _ => 0xF020
  | .andReg _ _ _ => 0xF020
  | .andImm _ _ _ => 0xF020
  | .jsr _ => 0xF800
  | .jsrr _ => 0xF800
  | .trapGetc => 0xF0FF
  | .trapOut => 0xF0FF
  | .trapPuts => 0xF0FF
  | .trapIn => 0xF0FF
  | .trapPutsp => 0xF0FF
  | .trapHalt => 0xF0FF
  | .br _ _ => 0xF000
  | .ld _ _ => 0xF000
  | .st _ _ => 0xF000
  | .ldr _ _ _ => 0xF000
  | .str _ _ _ => 0xF000
  | .rti _ => 0xF000
  | .not _ _ => 0xF000
  | .ldi _ _ => 0xF000
  | .sti _ _ => 0xF000
  | .jmp _ => 0xF000
  | .res _ => 0xF000
  | .lea _ _ => 0xF000
  | .trapUnknown _ _ => 0xF000

/-- The match of an instruction's row in `spec/opcode_table.json`: a Word `w` selects the row when
`w & mask = match` (R95; the row of `trapUnknown` only when no service row matches). -/
def rowMatch (i : Instr) : Word :=
  match i with
  | .br _ _ => 0x0000
  | .addReg _ _ _ => 0x1000
  | .addImm _ _ _ => 0x1020
  | .ld _ _ => 0x2000
  | .st _ _ => 0x3000
  | .jsr _ => 0x4800
  | .jsrr _ => 0x4000
  | .andReg _ _ _ => 0x5000
  | .andImm _ _ _ => 0x5020
  | .ldr _ _ _ => 0x6000
  | .str _ _ _ => 0x7000
  | .rti _ => 0x8000
  | .not _ _ => 0x9000
  | .ldi _ _ => 0xA000
  | .sti _ _ => 0xB000
  | .jmp _ => 0xC000
  | .res _ => 0xD000
  | .lea _ _ => 0xE000
  | .trapGetc => 0xF020
  | .trapOut => 0xF021
  | .trapPuts => 0xF022
  | .trapIn => 0xF023
  | .trapPutsp => 0xF024
  | .trapHalt => 0xF025
  | .trapUnknown _ _ => 0xF000

/-- The bits of the Word that R94 does not call ignored: the row's fixed bits and its fields.  For the
three unimplemented rows the list of R94 is overruled by the diagnostic event, which records the whole
Word (R182), so every bit is read. -/
def readMask (i : Instr) : Word :=
  match i with
  | .addReg _ _ _ => 0xFFE7
  | .andReg _ _ _ => 0xFFE7
  | .not _ _ => 0xFFC0
  | .jmp _ => 0xF1C0
  | .jsrr _ => 0xF9C0
  | .trapGetc => 0xF0FF
  | .trapOut => 0xF0FF
  | .trapPuts => 0xF0FF
  | .trapIn => 0xF0FF
  | .trapPutsp => 0xF0FF
  | .trapHalt => 0xF0FF
  | .br _ _ => 0xFFFF
  | .addImm _ _ _ => 0xFFFF
  | .andImm _ _ _ => 0xFFFF
  | .ld _ _ => 0xFFFF
  | .st _ _ => 0xFFFF
  | .jsr _ => 0xFFFF
  | .ldr _ _ _ => 0xFFFF
  | .str _ _ _ => 0xFFFF
  | .rti _ => 0xFFFF
  | .ldi _ _ => 0xFFFF
  | .sti _ _ => 0xFFFF
  | .res _ => 0xFFFF
  | .lea _ _ => 0xFFFF
  | .trapUnknown _ _ => 0xFFFF

end Sys2Proof
end

