-- ==== Sys2Proof/Machine/Trap.lean ====
section
/-!
DEFINITION. TRAP and the trap handler (`46_trap.md`).  A service is carried out inside the step of its
TRAP; TRAP itself writes no register, saves nothing and leaves `pc` at the next Word (R160, R190).
-/

namespace Sys2Proof.Machine

/-- GETC (R162): one byte from `con_in`, zero-extended, to R0, `setcc(0)`.  With `con_in` empty the core
waits (R34; log entry 3). -/
def execTrapGetc (s : State) : Host.Outcome State Fault Refusal :=
  match s.conRead with
  | none => .next s.notYet
  | some (c, s') => .next (s'.setRegCC 0 (zext16 c))

/-- OUT (R163): the low byte of R0, flush. -/
def execTrapOut (s : State) : Host.Outcome State Fault Refusal :=
  .next (s.conWrite (lowByte (s.reg 0))).conFlush

/-- The bytes PUTS writes for a nonzero Word of the string (R164, decision D17). -/
def putsBytes (w : Word) : List Byte := [lowByte w]

/-- The bytes PUTSP writes for a nonzero Word of the string (R167): the low byte always, then the high
byte if it is nonzero. -/
def putspBytes (w : Word) : List Byte :=
  if highByte w = 0x00 then [lowByte w] else [lowByte w, highByte w]

/-- The loop of PUTS and PUTSP (R164, R167) from address `a`, for at most `fuel` reads: a zero Word ends
the string; any other is written as `bytes` says, and the address goes up by one, modulo 2^16. -/
def stringLoop (bytes : Word → List Byte) : Nat → Word → State → State
  | 0, _, s => s
  | fuel + 1, a, s =>
    if (s.memRead a).1 = 0x0000 then (s.memRead a).2
    else stringLoop bytes fuel (a + 1) ((s.memRead a).2.conWrites (bytes (s.memRead a).1))

/-- The bound of R165 on the Words PUTS and PUTSP read; the loop always ends within it (log entry 10). -/
def stringFuel (s : State) : Nat := Config.memWords * (s.conIn.length + 1)

/-- PUTS (R164, R165): the string at `x[0]`, one character a Word, flush. -/
def execTrapPuts (s : State) : Host.Outcome State Fault Refusal :=
  .next (stringLoop putsBytes (stringFuel s) (s.reg 0) s).conFlush

/-- IN (R166): the prompt, one byte from `con_in`, its echo, the byte zero-extended to R0, `setcc(0)`.
With `con_in` empty the core waits, and the prompt is written when the byte is there (R116 form (a); the
order inside `con_out` is the same; log entry 3). -/
def execTrapIn (s : State) : Host.Outcome State Fault Refusal :=
  match s.conRead with
  | none => .next s.notYet
  | some (c, s') => .next (((s'.conWrites s.par.inPrompt).conWrite c).setRegCC 0 (zext16 c))

/-- PUTSP (R167, R165): the string at `x[0]`, two characters a Word, flush. -/
def execTrapPutsp (s : State) : Host.Outcome State Fault Refusal :=
  .next (stringLoop putspBytes (stringFuel s) (s.reg 0) s).conFlush

/-- HALT (R168): the notice, flush, `run <- HALTED`. -/
def execTrapHalt (s : State) : Host.Outcome State Fault Refusal :=
  .next { (s.conWrites s.par.haltNotice).conFlush with run := .halted }

/-- TRAP with any other vector (R169): a no-op with a diagnostic event of the whole Word. -/
def execTrapUnknown (high : BitVec 4) (vect : BitVec 8) (s : State) :
    Host.Outcome State Fault Refusal :=
  .next (s.unimplemented (encode (.trapUnknown high vect)))

/-- A core that is HALTED takes no step: "the state is final and stays as it is" (R115; log entry 2). -/
def stayHalted (s : State) : Host.Outcome State Fault Refusal := .next s

end Sys2Proof.Machine
end

