-- ==== Sys2Proof/Machine/Unimplemented.lean ====
section
/-!
DEFINITION. RTI and the reserved opcode (`47_unimplemented.md`): no-ops with a diagnostic event of the
whole instruction Word (R182).
-/

namespace Sys2Proof.Machine

/-- RTI (R180). -/
def execRti (low : BitVec 12) (s : State) : Host.Outcome State Fault Refusal :=
  .next (s.unimplemented (encode (.rti low)))

/-- The reserved opcode (R181). -/
def execRes (low : BitVec 12) (s : State) : Host.Outcome State Fault Refusal :=
  .next (s.unimplemented (encode (.res low)))

end Sys2Proof.Machine
end

