-- ==== Sys2Proof/Machine/Step.lean ====
section
/-!
DEFINITION. The step of the machine (`40_execution_loop.md` R110), and the placing of one instruction
where the next step fetches.
-/

namespace Sys2Proof.Machine

/-- One step (R110): while RUNNING, fetch, increment `pc`, decode, execute; a HALTED core stays as it is
(R115). -/
def step (s : State) : Host.Outcome State Fault Refusal :=
  match s.run with
  | .running => exec (decode s.fetch.1) s.fetch.2
  | .halted => stayHalted s

/-- The address `withFetchWord` fetches from: `pc`, unless that is KBD_STATUS, whose reads never return
what was stored there (R54); then the entry point. -/
def State.fetchAddress (s : State) : Word := if s.pc = kbdStatus then Config.pcReset else s.pc

/-- The state with an instruction Word stored where the next step fetches, and the core RUNNING so that
it does fetch (R110).  It stands for the load from outside that R216 describes (log entry 12). -/
def State.withFetchWord (s : State) (nbits w : Nat) : State :=
  { (s.memWrite s.fetchAddress (BitVec.ofNat 16 (w % 2 ^ nbits))) with
    pc := s.fetchAddress, run := .running }

end Sys2Proof.Machine
end

