-- ==== Sys2Proof/Machine/Boot.lean ====
section
/-!
DEFINITION. What the host does to the core outside its steps: the launch state (`70_reset_and_hazards.md`
R211), the arrival of console input (`10_state.md` R33) and the loading of images (R216 to R219).  The
loader is a collaborator outside the core; it is here so that a launch state can be built.
-/

namespace Sys2Proof.Machine

/-- The host appends bytes to the end of `con_in`, between two steps (R33). -/
def State.arrive (s : State) (bs : List Byte) : State := { s with conIn := s.conIn ++ bs }

/-- The launch state (R211): the reset state with `init_mem` as memory and `con_in` as supplied. -/
def State.launch (initMem : Memory) (input : List Byte) : State :=
  { State.reset with mem := initMem, conIn := input }

/-- The Words of the bytes after the origin, each big-endian; an odd trailing byte is ignored (R217). -/
def imageWords : List Byte → List Word
  | hi :: lo :: rest => (hi ++ lo) :: imageWords rest
  | _ => []

/-- `load(bytes) -> (origin_address, words)` (R217).  None for fewer than two bytes, which give no origin
(log entry 13). -/
def parseImage (bytes : List Byte) : Option (Word × List Word) :=
  match bytes with
  | hi :: lo :: rest => some (hi ++ lo, imageWords rest)
  | _ => none

/-- `mem[k] <- w` for a Word whose place `k` (origin plus index, not reduced) may lie above 0xFFFF
(R218). -/
def placeWord (policy : Config.ImageOverflow) (m : Memory) (k : Nat) (w : Word) : Memory :=
  if k < Config.memWords then m.write k w
  else match policy with
    | .truncate => m
    | .wrap => m.write (k % Config.memWords) w

/-- The Words of one image from place `k` on, in order (R217, R218). -/
def placeWords (policy : Config.ImageOverflow) : Nat → List Word → Memory → Memory
  | _, [], m => m
  | k, w :: ws, m => placeWords policy (k + 1) ws (placeWord policy m k w)

/-- One image into memory (R217, R218). -/
def loadImage (policy : Config.ImageOverflow) (m : Memory) (bytes : List Byte) : Option Memory :=
  (parseImage bytes).map fun img => placeWords policy img.1.toNat img.2 m

/-- Several images in turn into the same memory, later ones overwriting earlier ones (R219). -/
def loadImages (policy : Config.ImageOverflow) : Memory → List (List Byte) → Option Memory
  | m, [] => some m
  | m, img :: imgs => (loadImage policy m img).bind fun m' => loadImages policy m' imgs

/-- Start-up (R211): reset, then the images, then the launch state. -/
def State.boot (policy : Config.ImageOverflow) (images : List (List Byte)) (input : List Byte) :
    Option State :=
  (loadImages policy State.reset.mem images).map fun m => State.launch m input

end Sys2Proof.Machine
end

