-- ==== Sys2Proof/Safety.lean ====
section
/-!
DEFINITION. The terms claims are stated in: the invariant, the final and the waiting states, what a state
keeps of another, and a run under a schedule of console input.
-/

namespace Sys2Proof.Machine

/-- The invariant of the machine: memory is in canonical form, every listed address one of the 65536. -/
abbrev State.Inv (s : State) : Prop := s.mem.wf

/-- The core has reached the final state of its run (R43). -/
abbrev State.Final (s : State) : Prop := s.run = .halted

/-- The core waits inside GETC or IN (R34): it is RUNNING, the instruction it fetches is one of the two,
and no input is there.  It is not final. -/
abbrev State.Waits (s : State) : Prop :=
  s.run = .running ∧ s.conIn = [] ∧ (decode s.fetch.1 = .trapGetc ∨ decode s.fetch.1 = .trapIn)

/-- The program has stayed inside the defined instruction set: no diagnostic event so far (R182). -/
abbrev State.StaysDefined (s : State) : Prop := s.diag = []

/-- `t` holds in every register outside `ws` what `s` holds. -/
def State.KeepsRegs (s t : State) (ws : List Reg) : Prop := ∀ r : Reg, r ∉ ws → t.reg r = s.reg r

/-- Every cell of memory reads in `t` as in `s`. -/
def State.KeepsMem (s t : State) : Prop := ∀ a : Nat, t.mem.read a = s.mem.read a

/-- Every cell of memory but the one at `a` reads in `t` as in `s`. -/
def State.KeepsMemBut (s t : State) (a : Word) : Prop :=
  ∀ b : Nat, b ≠ a.toNat → t.mem.read b = s.mem.read b

/-- The console queues are the same. -/
def State.KeepsConsole (s t : State) : Prop := t.conIn = s.conIn ∧ t.conOut = s.conOut

/-- The run state, the diagnostic trace and the parameters are the same. -/
def State.KeepsControl (s t : State) : Prop := t.run = s.run ∧ t.diag = s.diag ∧ t.par = s.par

/-- COND of `t` is the flag of the Word `w` by R26, each of the three values exactly when it applies. -/
def State.FlagsOf (t : State) (w : Word) : Prop :=
  (t.cond = .zro ↔ w = 0) ∧ (t.cond = .neg ↔ w.msb = true) ∧
    (t.cond = .pos ↔ w ≠ 0 ∧ w.msb = false)

/-- The condition of BR as R120 gives it for COND as an enumeration: mask bit 2 tests NEGATIVE, bit 1 ZERO,
bit 0 POSITIVE (decision D2). -/
def BrCondition (nzp : BitVec 3) (c : Cond) : Prop :=
  (nzp.getLsbD 2 = true ∧ c = .neg) ∨ (nzp.getLsbD 1 = true ∧ c = .zro) ∨
    (nzp.getLsbD 0 = true ∧ c = .pos)

/-- The general register an instruction may write, by its rule (R20, R21, R154, R161): the destination
field, R7 of JSR and JSRR, R0 of GETC and IN; none for every other instruction. -/
def destination (i : Instr) : Option Reg :=
  match i with
  | .addReg dr _ _ => some dr
  | .addImm dr _ _ => some dr
  | .andReg dr _ _ => some dr
  | .andImm dr _ _ => some dr
  | .not dr _ => some dr
  | .ld dr _ => some dr
  | .ldi dr _ => some dr
  | .ldr dr _ _ => some dr
  | .lea dr _ => some dr
  | .jsr _ => some 7
  | .jsrr _ => some 7
  | .trapGetc => some 0
  | .trapIn => some 0
  | .br _ _ => none
  | .st _ _ => none
  | .sti _ _ => none
  | .str _ _ _ => none
  | .jmp _ => none
  | .rti _ => none
  | .res _ => none
  | .trapOut => none
  | .trapPuts => none
  | .trapPutsp => none
  | .trapHalt => none
  | .trapUnknown _ _ => none

/-- The instructions that set flags (R27): ADD, AND, NOT, LD, LDI, LDR, LEA, and the services GETC and
IN. -/
def SetsFlags (i : Instr) : Prop :=
  (∃ dr, destination i = some dr) ∧ (∀ off, i ≠ .jsr off) ∧ (∀ base, i ≠ .jsrr base)

/-- The services that produce console output (R198): OUT, PUTS, IN, PUTSP and HALT. -/
def Outputs (i : Instr) : Prop :=
  i = .trapOut ∨ i = .trapPuts ∨ i = .trapIn ∨ i = .trapPutsp ∨ i = .trapHalt

/-- The address an instruction stores to (R65), `s` the state after the fetch; none for an instruction
that stores nothing. -/
def storeAddress (i : Instr) (s : State) : Option Word :=
  match i with
  | .st _ off => some (s.pcRel9 off)
  | .sti _ off => some (s.memRead (s.pcRel9 off)).1
  | .str _ base off => some (s.baseOff6 base off)
  | .br _ _ | .addReg _ _ _ | .addImm _ _ _ | .ld _ _ | .jsr _ | .jsrr _ | .andReg _ _ _
  | .andImm _ _ _ | .ldr _ _ _ | .rti _ | .not _ _ | .ldi _ _ | .jmp _ | .res _ | .lea _ _
  | .trapGetc | .trapOut | .trapPuts | .trapIn | .trapPutsp | .trapHalt | .trapUnknown _ _ => none

/-- The program counter after the step by the table of R23, with `p` the incremented one; `s` is the
state whose registers and COND the instruction reads. -/
def tablePc (i : Instr) (s : State) (p t : Word) : Prop :=
  match i with
  | .br nzp off =>
    (BrCondition nzp s.cond → t = p + BitVec.ofInt 16 off.toInt) ∧ (¬ BrCondition nzp s.cond → t = p)
  | .jmp base => t = s.reg base
  | .jsr off => t = p + BitVec.ofInt 16 off.toInt
  | .jsrr base => (base = 7 → t = p) ∧ (base ≠ 7 → t = s.reg base)
  | .addReg _ _ _ | .addImm _ _ _ | .ld _ _ | .st _ _ | .andReg _ _ _ | .andImm _ _ _
  | .ldr _ _ _ | .str _ _ _ | .rti _ | .not _ _ | .ldi _ _ | .sti _ _ | .res _ | .lea _ _
  | .trapGetc | .trapOut | .trapPuts | .trapIn | .trapPutsp | .trapHalt | .trapUnknown _ _ => t = p

/-- The loop of PUTS and PUTSP as R164 and R167 write it, with no bound on the reads: from address `a` in
state `s` it writes the bytes `out` and leaves `t` (whose `conOut` is not yet touched).  That a derivation
exists says that the string ends. -/
inductive StringRun (bytes : Word → List Byte) : Word → State → List Byte → State → Prop where
  /-- The Word read is 0x0000: the string ends. -/
  | stop (a : Word) (s : State) (zero : (s.memRead a).1 = 0) :
      StringRun bytes a s [] (s.memRead a).2
  /-- Any other Word: its bytes are written, and the string goes on at the next address. -/
  | more (a : Word) (s : State) (out : List Byte) (t : State) (nonzero : (s.memRead a).1 ≠ 0)
      (rest : StringRun bytes (a + 1) (s.memRead a).2 out t) :
      StringRun bytes a s (bytes (s.memRead a).1 ++ out) t

/-- A run under a schedule: before each step the host appends the schedule's next bytes to `con_in`
(R33, R114).  Stops at the first fault or refusal. -/
def runSchedule : List (List Byte) → State → Host.Outcome State Fault Refusal
  | [], s => .next s
  | bs :: rest, s =>
    match step (s.arrive bs) with
    | .next t => runSchedule rest t
    | .fault r => .fault r
    | .refused r => .refused r

end Sys2Proof.Machine
end

