-- ==== Sys2Proof/Certificates/Slice0/Obligations.lean ====
section
/-!
DEFINITION. The statements for the provers, each a `def Obligations.<Name> : Prop`.  A statement about an
instruction is about `exec`, so its `pc` is the incremented program counter (`40_execution_loop.md` R111);
statements about `step` start from the state before the fetch.  Memory statements assume the invariant
`State.Inv`, which rules out memories that are not in canonical form; that every step keeps it is the
statement `StepKeepsMemoryCanonical`.
-/

open Sys2Proof Sys2Proof.Machine

/-! ## Encoding -/

/-- Decoding the encoding of a well-formed instruction gives it back, whatever its operands.  Rests on the
encodings of decision D1. -/
def Obligations.DecodeOfEncodeIsTheInstruction : Prop :=
  ∀ i : Instr, i.wf = true → decode (encode i) = i

/-- Every Word decodes to a well-formed instruction whose encoding agrees with the Word on every bit the
instruction reads. Rests on D1. -/
def Obligations.EncodeOfDecodeKeepsTheReadBits : Prop :=
  ∀ w : Word, (decode w).wf = true ∧
    encode (decode w) &&& readMask (decode w) = w &&& readMask (decode w)

/-- Field isolation (R94, R131): two Words that agree on the bits the decoded instruction reads are the
same instruction.  For RTI, the reserved opcode and unknown vectors, whose whole Word the diagnostic event
records (D12), Words with the same opcode differ in `diag` alone. Which bits are ignored rests on D1. -/
def Obligations.IgnoredBitsChangeNothing : Prop :=
  (∀ w v : Word, w &&& readMask (decode w) = v &&& readMask (decode w) → decode v = decode w) ∧
  (∀ (s : State) (a b : BitVec 12), ∃ t u : State,
    exec (.rti a) s = .next t ∧ exec (.rti b) s = .next u ∧ { t with diag := s.diag } = s ∧
      { u with diag := s.diag } = s) ∧
  (∀ (s : State) (a b : BitVec 12), ∃ t u : State,
    exec (.res a) s = .next t ∧ exec (.res b) s = .next u ∧ { t with diag := s.diag } = s ∧
      { u with diag := s.diag } = s) ∧
  (∀ (s : State) (a b : BitVec 4) (v : BitVec 8), ∃ t u : State,
    exec (.trapUnknown a v) s = .next t ∧ exec (.trapUnknown b v) s = .next u ∧
      { t with diag := s.diag } = s ∧ { u with diag := s.diag } = s)

/-- Every Word selects exactly one row of the opcode table (R82, R95): the decoded instruction's row
matches it, and any row but the fallback row of TRAP_UNKNOWN that matches it is that row.
Rests on D1 and D4. -/
def Obligations.EveryWordSelectsExactlyItsRow : Prop :=
  ∀ w : Word, w &&& rowMask (decode w) = rowMatch (decode w) ∧
    ∀ j : Instr, (∀ h v, j ≠ .trapUnknown h v) → w &&& rowMask j = rowMatch j →
      rowMask j = rowMask (decode w) ∧ rowMatch j = rowMatch (decode w)

/-- Words written out from the formats R84 to R91 decode to the instructions they stand for.
Rests on D1 and D2. -/
def Obligations.WrittenOutWordsDecode : Prop :=
  decode 0b0000_010_011111111 = .br 0b010 0b011111111 ∧
  decode 0b0001_010_000_0_11_001 = .addReg 2 0 1 ∧
  decode 0b0101_001_010_1_10000 = .andImm 1 2 0b10000 ∧
  decode 0b1010_010_011111111 = .ldi 2 0b011111111 ∧
  decode 0b0111_010_101_111110 = .str 2 5 0b111110 ∧
  decode 0b0100_1_11111111111 = .jsr 0b11111111111 ∧
  decode 0b0100_0_11_010_111111 = .jsrr 2 ∧
  decode 0b1111_1111_00100101 = .trapHalt ∧
  decode 0b1111_0000_00100110 = .trapUnknown 0b0000 0b00100110 ∧
  decode 0b1101_101010111100 = .res 0b101010111100

/-- `sign_extend` is the two's-complement value of the field, at every width from 1 to 16 (R11). -/
def Obligations.SignExtendIsTheSignedValue : Prop :=
  ∀ (v : Word) (n : Nat), 1 ≤ n → n ≤ 16 →
    (signExtend (v &&& BitVec.ofNat 16 (2 ^ n - 1)) n).toInt = (v.setWidth n).toInt

/-- The effective addresses are the base plus the signed offset, modulo 2^16 (R93, R52). -/
def Obligations.OffsetsAreSigned : Prop :=
  ∀ (s : State) (off6 : BitVec 6) (off9 : BitVec 9) (off11 : BitVec 11) (base : Reg),
    ((s.pcRel9 off9).toNat : Int) = ((s.pc.toNat : Int) + off9.toInt) % 65536 ∧
    ((s.pcRel11 off11).toNat : Int) = ((s.pc.toNat : Int) + off11.toInt) % 65536 ∧
    ((s.baseOff6 base off6).toNat : Int) = (((s.reg base).toNat : Int) + off6.toInt) % 65536

/-! ## The step -/

/-- A RUNNING core's step is the fetched Word's instruction at the state after the fetch: the fetch is a
`MemRead`, and `pc` is incremented modulo 2^16 before the instruction (R110, R111). -/
def Obligations.StepRunsTheDecodedInstruction : Prop :=
  ∀ s : State, s.run = .running →
    step s = exec (decode (s.memRead s.pc).1) { (s.memRead s.pc).2 with pc := s.pc + 1 }

/-- Away from the keyboard status cell the fetch is plain: the step is the instruction of the cell at
`pc`, from the same state with `pc` incremented. -/
def Obligations.StepRunsTheCellAtPc : Prop :=
  ∀ (s : State) (i : Instr), s.run = .running → s.pc ≠ 0xFE00 → i.wf = true →
    decode (s.mem.read s.pc.toNat) = i → step s = exec i { s with pc := s.pc + 1 }

/-- A fetch from 0xFE00 polls the keyboard (R70).  With a byte waiting it latches the byte and executes
0x8000, RTI; with none it executes 0x0000, a branch never taken.  Rests on D3, D15, D16 and D12. -/
def Obligations.FetchFromKeyboardStatusPolls : Prop :=
  ∀ s : State, s.Inv → s.run = .running → s.pc = 0xFE00 →
    (∀ c rest, s.conIn = c :: rest → ∃ t, step s = .next t ∧ t.pc = 0xFE01 ∧ t.conIn = rest ∧
      t.mem.read 0xFE00 = 0x8000 ∧ t.mem.read 0xFE02 = c.setWidth 16 ∧
      (∀ b, b ≠ 0xFE00 → b ≠ 0xFE02 → t.mem.read b = s.mem.read b) ∧
      t.regs = s.regs ∧ t.cond = s.cond ∧ t.run = .running ∧ t.conOut = s.conOut ∧
      t.diag = s.diag ++ [0x8000] ∧ t.par = s.par) ∧
    (s.conIn = [] → ∃ t, step s = .next t ∧ t.pc = 0xFE01 ∧ t.conIn = [] ∧
      t.mem.read 0xFE00 = 0x0000 ∧ s.KeepsMemBut t 0xFE00 ∧
      t.regs = s.regs ∧ t.cond = s.cond ∧ s.KeepsControl t ∧ t.conOut = s.conOut)

/-- Every step answers a next state: no fault and no refusal, in any state (R185 and
`93_implementation_defined.md` section 1).  That a HALTED core and a core waiting for input answer
themselves is the model's choice (log entries 2 and 3). -/
def Obligations.EveryStepAnswersANextState : Prop :=
  ∀ s : State, ∃ t, step s = .next t

/-- The program counter after a step is the table of R23, for every instruction; GETC and IN with no input
waiting are left to `WaitingCoreStaysAsItIs`.  The condition of BR is that of D2. -/
def Obligations.ProgramCounterFollowsTheTable : Prop :=
  ∀ s t : State, s.Inv → s.run = .running → ¬ s.Waits → step s = .next t →
    tablePc (decode s.fetch.1) s (s.pc + 1) t.pc

/-! ## Reset and start-up -/

/-- The reset state (R40), with every memory cell 0x0000 (R41) and no output (R42; the spec's own decision
D10, log entry 14). -/
def Obligations.ResetState : Prop :=
  (∀ r : Reg, State.reset.reg r = 0x0000) ∧ State.reset.pc = 0x3000 ∧ State.reset.cond = .zro ∧
    State.reset.run = .running ∧ State.reset.diag = [] ∧
    (∀ a : Nat, State.reset.mem.read a = 0x0000) ∧ State.reset.conOut = []

/-- The invariant holds at reset. The form is the model's (log entry 1). -/
def Obligations.ResetMemoryIsCanonical : Prop := State.reset.Inv

/-- An image's Words lie from its origin on (R217), each of two bytes, the first the high one; a Word past
0xFFFF is dropped under `truncate`; cells outside the image keep their content (R218).
Rests on D8 (log entry 13). -/
def Obligations.ImageWordsLandAtTheOrigin : Prop :=
  ∀ (m : Memory) (hi lo : Byte) (data : List Byte), m.wf → ∃ m' : Memory,
    loadImage .truncate m (hi :: lo :: data) = some m' ∧ m'.wf ∧
    (∀ (k : Nat) (a b : Byte), data[2 * k]? = some a → data[2 * k + 1]? = some b →
      hi.toNat * 256 + lo.toNat + k ≤ 0xFFFF →
      (m'.read (hi.toNat * 256 + lo.toNat + k)).toNat = a.toNat * 256 + b.toNat) ∧
    (∀ x : Nat, x < hi.toNat * 256 + lo.toNat ∨ hi.toNat * 256 + lo.toNat + data.length / 2 ≤ x →
      m'.read x = m.read x)

/-- Under `wrap` a Word past 0xFFFF lies at its place modulo 65536 (R218), for an image that does not
overwrite itself. Rests on D8 (log entry 13). -/
def Obligations.OversizedImageWraps : Prop :=
  ∀ (m : Memory) (hi lo : Byte) (data : List Byte), m.wf → data.length / 2 ≤ 65536 → ∃ m' : Memory,
    loadImage .wrap m (hi :: lo :: data) = some m' ∧ m'.wf ∧
    ∀ (k : Nat) (a b : Byte), data[2 * k]? = some a → data[2 * k + 1]? = some b →
      (m'.read ((hi.toNat * 256 + lo.toNat + k) % 65536)).toNat = a.toNat * 256 + b.toNat

/-- Start-up gives the launch state of R211 with memory in canonical form, for every list of images.
Rests on D8 (log entry 13). -/
def Obligations.BootGivesALaunchState : Prop :=
  ∀ (policy : Config.ImageOverflow) (images : List (List Byte)) (input : List Byte) (s : State),
    State.boot policy images input = some s →
      s.Inv ∧ s.pc = 0x3000 ∧ s.cond = .zro ∧ s.run = .running ∧ (∀ r : Reg, s.reg r = 0x0000) ∧
        s.conIn = input ∧ s.conOut = [] ∧ s.diag = []

/-! ## ALU -/

/-- ADD, both forms (R125, R126): the sum of the sources, the immediate signed, modulo 2^16; COND from the
result; nothing else changes. -/
def Obligations.AddWritesTheSumAndFlags : Prop :=
  ∀ (s : State) (dr sr1 sr2 : Reg) (imm : BitVec 5),
    (∃ t, exec (.addReg dr sr1 sr2) s = .next t ∧
      (t.reg dr).toNat = ((s.reg sr1).toNat + (s.reg sr2).toNat) % 65536 ∧
      t.FlagsOf (t.reg dr) ∧ s.KeepsRegs t [dr] ∧ t.pc = s.pc ∧ s.KeepsMem t ∧ s.KeepsConsole t ∧
      s.KeepsControl t) ∧
    (∃ t, exec (.addImm dr sr1 imm) s = .next t ∧
      ((t.reg dr).toNat : Int) = (((s.reg sr1).toNat : Int) + imm.toInt) % 65536 ∧
      t.FlagsOf (t.reg dr) ∧ s.KeepsRegs t [dr] ∧ t.pc = s.pc ∧ s.KeepsMem t ∧ s.KeepsConsole t ∧
      s.KeepsControl t)

/-- AND, both forms (R127, R128): bit by bit, the immediate sign-extended, so its bit 4 stands for bits 15
to 4; COND from the result; nothing else changes. -/
def Obligations.AndWritesTheBitsAndFlags : Prop :=
  ∀ (s : State) (dr sr1 sr2 : Reg) (imm : BitVec 5),
    (∃ t, exec (.andReg dr sr1 sr2) s = .next t ∧
      (∀ k : Nat, (t.reg dr).getLsbD k = ((s.reg sr1).getLsbD k && (s.reg sr2).getLsbD k)) ∧
      t.FlagsOf (t.reg dr) ∧ s.KeepsRegs t [dr] ∧ t.pc = s.pc ∧ s.KeepsMem t ∧ s.KeepsConsole t ∧
      s.KeepsControl t) ∧
    (∃ t, exec (.andImm dr sr1 imm) s = .next t ∧
      (∀ k : Nat, (t.reg dr).getLsbD k =
        ((s.reg sr1).getLsbD k && (if k < 5 then imm.getLsbD k else imm.getLsbD 4))) ∧
      t.FlagsOf (t.reg dr) ∧ s.KeepsRegs t [dr] ∧ t.pc = s.pc ∧ s.KeepsMem t ∧ s.KeepsConsole t ∧
      s.KeepsControl t)

/-- NOT (R129): every bit complemented; COND from the result; nothing else changes. -/
def Obligations.NotWritesTheComplementAndFlags : Prop :=
  ∀ (s : State) (dr sr : Reg), ∃ t, exec (.not dr sr) s = .next t ∧
    (∀ k : Nat, k < 16 → (t.reg dr).getLsbD k = !(s.reg sr).getLsbD k) ∧
    t.FlagsOf (t.reg dr) ∧ s.KeepsRegs t [dr] ∧ t.pc = s.pc ∧ s.KeepsMem t ∧ s.KeepsConsole t ∧
    s.KeepsControl t

/-! ## Memory and the keyboard -/

/-- A `MemRead` of any address but 0xFE00 returns the cell and changes nothing; with no input waiting a
read of 0xFE00 returns 0x0000 and clears that cell alone; with a byte waiting it returns the ready value,
consumes the byte and latches it at 0xFE02 (R53).  The ready value 0x8000 is D3, the zero extension
D16. -/
def Obligations.MemReadPollsTheKeyboard : Prop :=
  ∀ s : State, s.Inv →
    (∀ a : Word, a ≠ 0xFE00 → s.memRead a = (s.mem.read a.toNat, s)) ∧
    (s.conIn = [] → (s.memRead 0xFE00).1 = 0x0000 ∧
      (s.memRead 0xFE00).2 = { s with mem := (s.memRead 0xFE00).2.mem } ∧
      (s.memRead 0xFE00).2.mem.read 0xFE00 = 0x0000 ∧ s.KeepsMemBut (s.memRead 0xFE00).2 0xFE00) ∧
    (∀ c rest, s.conIn = c :: rest → (s.memRead 0xFE00).1 = 0x8000 ∧
      (s.memRead 0xFE00).2 = { s with mem := (s.memRead 0xFE00).2.mem, conIn := rest } ∧
      (s.memRead 0xFE00).2.mem.read 0xFE00 = 0x8000 ∧
      (s.memRead 0xFE00).2.mem.read 0xFE02 = c.setWidth 16 ∧
      ∀ b, b ≠ 0xFE00 → b ≠ 0xFE02 → (s.memRead 0xFE00).2.mem.read b = s.mem.read b)

/-- Two status reads in a row with two bytes waiting consume both, and the first is lost: the data cell
holds the second, and reading the data cell changes nothing (R54, items 2 and 4).  The zero extension is
D16. -/
def Obligations.SecondStatusReadLosesTheFirstByte : Prop :=
  ∀ (s : State) (c d : Byte) (rest : List Byte), s.Inv → s.conIn = c :: d :: rest →
    let u := ((s.memRead 0xFE00).2.memRead 0xFE00).2
    u.conIn = rest ∧ u.memRead 0xFE02 = (d.setWidth 16, u)

/-- A `MemWrite` stores the Word at every address, the keyboard cells too; it changes no other cell, and
nothing of the console or of the core (R55). -/
def Obligations.MemWriteStoresOneCell : Prop :=
  ∀ (s : State) (a v : Word), s.Inv →
    (s.memWrite a v).mem.read a.toNat = v ∧ s.KeepsMemBut (s.memWrite a v) a ∧
    s.memWrite a v = { s with mem := (s.memWrite a v).mem }

/-- A written Word is read back from every address but 0xFE00; the next read of 0xFE00 returns only 0x0000
or the ready value 0x8000 of D3, whatever was stored there (R54 item 1, R56, R64). -/
def Obligations.WrittenWordIsReadBackExceptAtTheStatusCell : Prop :=
  ∀ (s : State) (a v : Word), s.Inv →
    (a ≠ 0xFE00 → ((s.memWrite a v).memRead a).1 = v) ∧
    (((s.memWrite 0xFE00 v).memRead 0xFE00).1 = 0x0000 ∨
      ((s.memWrite 0xFE00 v).memRead 0xFE00).1 = 0x8000)

/-- A store into the next cell is what the next step fetches (R68), by each of the three stores. -/
def Obligations.StoredWordIsFetchedNext : Prop :=
  ∀ (s t : State) (i : Instr) (sr : Reg), s.Inv → s.run = .running → decode s.fetch.1 = i →
    ((∃ off, i = .st sr off) ∨ (∃ off, i = .sti sr off) ∨ (∃ base off, i = .str sr base off)) →
    storeAddress i s.fetch.2 = some (s.pc + 1) → s.pc + 1 ≠ 0xFE00 → step s = .next t →
      step t = exec (decode (s.reg sr)) { t with pc := s.pc + 2 }

/-! ## Loads -/

/-- LD (R135): the destination gets the Word a `MemRead` of `pc` plus the offset returns, and COND is set
from it.  Memory and the input queue are as that read leaves them: unchanged unless the address is
0xFE00, and then only the two keyboard cells can change. -/
def Obligations.LdLoadsTheCell : Prop :=
  ∀ (s : State) (dr : Reg) (off : BitVec 9), s.Inv → ∃ t, exec (.ld dr off) s = .next t ∧
    t.reg dr = (s.memRead (s.pcRel9 off)).1 ∧ t.FlagsOf (t.reg dr) ∧ s.KeepsRegs t [dr] ∧
    t.mem = (s.memRead (s.pcRel9 off)).2.mem ∧ t.conIn = (s.memRead (s.pcRel9 off)).2.conIn ∧
    (s.pcRel9 off ≠ 0xFE00 →
      t.reg dr = s.mem.read (s.pcRel9 off).toNat ∧ s.KeepsMem t ∧ t.conIn = s.conIn) ∧
    (∀ b, b ≠ 0xFE00 → b ≠ 0xFE02 → t.mem.read b = s.mem.read b) ∧
    t.pc = s.pc ∧ t.conOut = s.conOut ∧ s.KeepsControl t

/-- LDR (R137): as LD, from the base register plus the offset; the base is read before the destination is
written. -/
def Obligations.LdrLoadsFromTheBase : Prop :=
  ∀ (s : State) (dr base : Reg) (off : BitVec 6), s.Inv → ∃ t, exec (.ldr dr base off) s = .next t ∧
    t.reg dr = (s.memRead (s.baseOff6 base off)).1 ∧ t.FlagsOf (t.reg dr) ∧ s.KeepsRegs t [dr] ∧
    t.mem = (s.memRead (s.baseOff6 base off)).2.mem ∧
    t.conIn = (s.memRead (s.baseOff6 base off)).2.conIn ∧
    (s.baseOff6 base off ≠ 0xFE00 →
      t.reg dr = s.mem.read (s.baseOff6 base off).toNat ∧ s.KeepsMem t ∧ t.conIn = s.conIn) ∧
    (∀ b, b ≠ 0xFE00 → b ≠ 0xFE02 → t.mem.read b = s.mem.read b) ∧
    t.pc = s.pc ∧ t.conOut = s.conOut ∧ s.KeepsControl t

/-- LDI (R136): two `MemRead`s in order, the second at the Word the first returned, in the state the first
left. -/
def Obligations.LdiLoadsThroughThePointer : Prop :=
  ∀ (s : State) (dr : Reg) (off : BitVec 9), s.Inv → ∃ t, exec (.ldi dr off) s = .next t ∧
    (∀ p u, s.memRead (s.pcRel9 off) = (p, u) →
      t.reg dr = (u.memRead p).1 ∧ t.mem = (u.memRead p).2.mem ∧ t.conIn = (u.memRead p).2.conIn) ∧
    t.FlagsOf (t.reg dr) ∧ s.KeepsRegs t [dr] ∧
    (s.pcRel9 off ≠ 0xFE00 → s.mem.read (s.pcRel9 off).toNat ≠ 0xFE00 →
      t.reg dr = s.mem.read (s.mem.read (s.pcRel9 off).toNat).toNat ∧ s.KeepsMem t ∧
        t.conIn = s.conIn) ∧
    (∀ b, b ≠ 0xFE00 → b ≠ 0xFE02 → t.mem.read b = s.mem.read b) ∧
    t.pc = s.pc ∧ t.conOut = s.conOut ∧ s.KeepsControl t

/-- One LDI polls the keyboard at most once (R136): its two reads consume at most one byte. Rests on D3. -/
def Obligations.LdiPollsAtMostOnce : Prop :=
  ∀ (s t : State) (dr : Reg) (off : BitVec 9), s.Inv → exec (.ldi dr off) s = .next t →
    t.conIn = s.conIn ∨ t.conIn = s.conIn.tail

/-- LEA (R138): the address itself, and COND from it; no memory access, so no poll. -/
def Obligations.LeaComputesTheAddress : Prop :=
  ∀ (s : State) (dr : Reg) (off : BitVec 9), ∃ t, exec (.lea dr off) s = .next t ∧
    ((t.reg dr).toNat : Int) = ((s.pc.toNat : Int) + off.toInt) % 65536 ∧
    t.FlagsOf (t.reg dr) ∧ s.KeepsRegs t [dr] ∧ t.pc = s.pc ∧ t.mem = s.mem ∧ s.KeepsConsole t ∧
    s.KeepsControl t

/-! ## Stores -/

/-- ST and STR (R145, R147): the source register at the effective address; every other cell and everything
else unchanged. -/
def Obligations.StoresWriteTheirCell : Prop :=
  ∀ (s : State) (sr base : Reg) (off9 : BitVec 9) (off6 : BitVec 6), s.Inv →
    (∃ t, exec (.st sr off9) s = .next t ∧ t.mem.read (s.pcRel9 off9).toNat = s.reg sr ∧
      s.KeepsMemBut t (s.pcRel9 off9) ∧ t.regs = s.regs ∧ t.pc = s.pc ∧ t.cond = s.cond ∧
      s.KeepsConsole t ∧ s.KeepsControl t) ∧
    (∃ t, exec (.str sr base off6) s = .next t ∧ t.mem.read (s.baseOff6 base off6).toNat = s.reg sr ∧
      s.KeepsMemBut t (s.baseOff6 base off6) ∧ t.regs = s.regs ∧ t.pc = s.pc ∧ t.cond = s.cond ∧
      s.KeepsConsole t ∧ s.KeepsControl t)

/-- STI (R146): one `MemRead` of the pointer, then the source register at the pointer; every other cell is
as the read left it. -/
def Obligations.StiStoresThroughThePointer : Prop :=
  ∀ (s : State) (sr : Reg) (off : BitVec 9), s.Inv → ∃ t, exec (.sti sr off) s = .next t ∧
    (∀ p u, s.memRead (s.pcRel9 off) = (p, u) →
      t.mem.read p.toNat = s.reg sr ∧ u.KeepsMemBut t p ∧ t.conIn = u.conIn) ∧
    (s.pcRel9 off ≠ 0xFE00 →
      s.KeepsMemBut t (s.mem.read (s.pcRel9 off).toNat) ∧ t.conIn = s.conIn) ∧
    t.regs = s.regs ∧ t.pc = s.pc ∧ t.cond = s.cond ∧ t.conOut = s.conOut ∧ s.KeepsControl t

/-! ## Control flow -/

/-- BR (R120, R121): when the condition holds `pc` moves by the signed offset; otherwise it stays; nothing
else changes.  Which mask bit tests which flag is D2. -/
def Obligations.BranchMovesPcWhenTheConditionHolds : Prop :=
  ∀ (s : State) (nzp : BitVec 3) (off : BitVec 9), ∃ t, exec (.br nzp off) s = .next t ∧
    (BrCondition nzp s.cond → (t.pc.toNat : Int) = ((s.pc.toNat : Int) + off.toInt) % 65536) ∧
    (¬ BrCondition nzp s.cond → t.pc = s.pc) ∧ t = { s with pc := t.pc } ∧
    (nzp = 0b000 → t = s) ∧ (nzp = 0b111 → BrCondition nzp s.cond)

/-- JMP (R150): `pc` gets the whole base register; nothing else changes. -/
def Obligations.JumpGoesToTheRegister : Prop :=
  ∀ (s : State) (base : Reg), exec (.jmp base) s = .next { s with pc := s.reg base }

/-- JSR (R152): R7 gets the incremented `pc`, and `pc` moves by the signed offset from it; nothing else
changes, COND neither. -/
def Obligations.JsrLinksAndBranches : Prop :=
  ∀ (s : State) (off : BitVec 11), ∃ t, exec (.jsr off) s = .next t ∧ t.reg 7 = s.pc ∧
    (t.pc.toNat : Int) = ((s.pc.toNat : Int) + off.toInt) % 65536 ∧ s.KeepsRegs t [7] ∧
    t.cond = s.cond ∧ t.mem = s.mem ∧ s.KeepsConsole t ∧ s.KeepsControl t

/-- JSRR (R153): R7 is written before the base is read, so a base of R7 falls through and any other base
is the target; nothing else changes. -/
def Obligations.JsrrLinksBeforeItReadsTheBase : Prop :=
  ∀ (s : State) (base : Reg), ∃ t, exec (.jsrr base) s = .next t ∧ t.reg 7 = s.pc ∧
    (base = 7 → t.pc = s.pc) ∧ (base ≠ 7 → t.pc = s.reg base) ∧ s.KeepsRegs t [7] ∧
    t.cond = s.cond ∧ t.mem = s.mem ∧ s.KeepsConsole t ∧ s.KeepsControl t

/-! ## The trap handler -/

/-- GETC with input waiting (R162): the first byte, zero-extended (D16), to R0, COND from it (so never
NEGATIVE); nothing written, the keyboard cells untouched. -/
def Obligations.GetcReadsOneByte : Prop :=
  ∀ (s : State) (c : Byte) (rest : List Byte), s.conIn = c :: rest → ∃ t,
    exec .trapGetc s = .next t ∧ (t.reg 0).toNat = c.toNat ∧ t.FlagsOf (t.reg 0) ∧ t.cond ≠ .neg ∧
    t.conIn = rest ∧ s.KeepsRegs t [0] ∧ t.pc = s.pc ∧ t.mem = s.mem ∧ t.conOut = s.conOut ∧
    s.KeepsControl t

/-- IN with input waiting (R166): the prompt, then the echo of the byte, written once and with no flush
(D22); the byte, zero-extended (D16), to R0; COND from it. -/
def Obligations.InPromptsReadsAndEchoes : Prop :=
  ∀ (s : State) (c : Byte) (rest : List Byte), s.conIn = c :: rest → ∃ t,
    exec .trapIn s = .next t ∧ (t.reg 0).toNat = c.toNat ∧ t.FlagsOf (t.reg 0) ∧ t.cond ≠ .neg ∧
    t.conIn = rest ∧ t.conOut = s.conOut ++ s.par.inPrompt.map .write ++ [.write c] ∧
    s.KeepsRegs t [0] ∧ t.pc = s.pc ∧ t.mem = s.mem ∧ s.KeepsControl t

/-- OUT (R163): the low byte of R0, then a flush; nothing else changes. -/
def Obligations.OutWritesTheLowByte : Prop :=
  ∀ s : State, ∃ (t : State) (b : Byte), exec .trapOut s = .next t ∧
    b.toNat = (s.reg 0).toNat % 256 ∧
    t = { s with conOut := s.conOut ++ [.write b, .flush] }

/-- PUTS runs the loop of R164 to its end, from every state: the reads are `MemRead`s (D11), the bytes are
written in order, then one flush; the rest of the state is as the reads leave it, so no register, no flag
and not `pc`, and of memory only the two keyboard cells can change. Rests on D11, D17, D21. -/
def Obligations.PutsRunsTheStringToItsEnd : Prop :=
  ∀ s : State, s.Inv → ∃ (out : List Byte) (u t : State),
    StringRun (fun w => [w.setWidth 8]) (s.reg 0) s out u ∧ exec .trapPuts s = .next t ∧
    t = { s with mem := u.mem, conIn := u.conIn,
                 conOut := s.conOut ++ out.map .write ++ [.flush] } ∧
    ∀ b, b ≠ 0xFE00 → b ≠ 0xFE02 → t.mem.read b = s.mem.read b

/-- PUTSP runs the loop of R167 to its end, from every state: for each Word the low byte, then the high
byte if it is nonzero. Rests on D11, D21. -/
def Obligations.PutspRunsTheStringToItsEnd : Prop :=
  ∀ s : State, s.Inv → ∃ (out : List Byte) (u t : State),
    StringRun (fun w => if (w >>> 8).setWidth 8 = 0#8 then [w.setWidth 8]
      else [w.setWidth 8, (w >>> 8).setWidth 8]) (s.reg 0) s out u ∧ exec .trapPutsp s = .next t ∧
    t = { s with mem := u.mem, conIn := u.conIn,
                 conOut := s.conOut ++ out.map .write ++ [.flush] } ∧
    ∀ b, b ≠ 0xFE00 → b ≠ 0xFE02 → t.mem.read b = s.mem.read b

/-- PUTS on a string that does not touch 0xFE00 (R164): the low bytes of its Words in order (D17), a
flush, and nothing else.  Addresses wrap modulo 2^16 (D21). -/
def Obligations.PutsWritesAPlainString : Prop :=
  ∀ (s : State) (ws : List Word),
    (∀ (k : Nat) (w : Word), ws[k]? = some w → w ≠ 0 ∧ s.reg 0 + BitVec.ofNat 16 k ≠ 0xFE00 ∧
      s.mem.read (s.reg 0 + BitVec.ofNat 16 k).toNat = w) →
    s.reg 0 + BitVec.ofNat 16 ws.length ≠ 0xFE00 →
    s.mem.read (s.reg 0 + BitVec.ofNat 16 ws.length).toNat = 0 →
      exec .trapPuts s = .next { s with
        conOut := s.conOut ++ ws.map (fun w => .write (w.setWidth 8)) ++ [.flush] }

/-- The bound of R165: a string of PUTS or PUTSP, from any state and address, is read to its end within
`65536 * (length of con_in + 1)` reads, so more reads than that change nothing.
Rests on D11, D21 (log entry 10). -/
def Obligations.StringsEndWithinTheBound : Prop :=
  ∀ (bytes : Word → List Byte) (s : State) (a : Word) (n : Nat), s.Inv →
    65536 * (s.conIn.length + 1) ≤ n →
      stringLoop bytes n a s = stringLoop bytes (65536 * (s.conIn.length + 1)) a s

/-- HALT (R168): the notice, a flush, `run` HALTED; nothing else changes, `pc` and R7 neither. -/
def Obligations.HaltStopsTheCore : Prop :=
  ∀ s : State, exec .trapHalt s = .next { s with
    run := .halted, conOut := s.conOut ++ s.par.haltNotice.map .write ++ [.flush] }

/-- RTI, the reserved opcode and TRAP with an unknown vector (R180, R181, R169): a no-op, and the
diagnostic event of D12 records the whole Word. -/
def Obligations.UnimplementedInstructionsAreNoOps : Prop :=
  ∀ (s : State) (low : BitVec 12) (high : BitVec 4) (vect : BitVec 8),
    exec (.rti low) s = .next { s with diag := s.diag ++ [0x8000 ||| low.setWidth 16] } ∧
    exec (.res low) s = .next { s with diag := s.diag ++ [0xD000 ||| low.setWidth 16] } ∧
    exec (.trapUnknown high vect) s = .next { s with
      diag := s.diag ++ [0xF000 ||| (high.setWidth 16 <<< 8) ||| vect.setWidth 16] }

/-- The diagnostic event records the fetched Word, and a step adds to `diag` exactly when its instruction
is one of the three (R182, D12). -/
def Obligations.DiagnosticRecordsTheFetchedWord : Prop :=
  ∀ s t : State, s.run = .running → step s = .next t →
    (((∃ low, decode s.fetch.1 = .rti low) ∨ (∃ low, decode s.fetch.1 = .res low) ∨
      (∃ high vect, decode s.fetch.1 = .trapUnknown high vect)) → t.diag = s.diag ++ [s.fetch.1]) ∧
    (t.diag ≠ s.diag → (∃ low, decode s.fetch.1 = .rti low) ∨ (∃ low, decode s.fetch.1 = .res low) ∨
      (∃ high vect, decode s.fetch.1 = .trapUnknown high vect))

/-! ## Waiting and the end of a run -/

/-- A core waiting in GETC or IN stays as it is, step after step (R34, R116 form (a)); this form of the
wait is the model's choice (log entry 3). -/
def Obligations.WaitingCoreStaysAsItIs : Prop :=
  ∀ s : State, s.Inv → s.Waits → step s = .next s

/-- The arrival of a byte ends the wait (R34, R201): the next step completes the instruction, consumes the
first byte that arrived and goes on at the next Word.
Rests on D16 and the form of the wait in log entry 3. -/
def Obligations.ArrivalEndsTheWait : Prop :=
  ∀ (s : State) (c : Byte) (rest : List Byte), s.Inv → s.Waits → ∃ t,
    step (s.arrive (c :: rest)) = .next t ∧ t.pc = s.pc + 1 ∧ (t.reg 0).toNat = c.toNat ∧
      t.conIn = rest ∧ t.run = .running

/-- HALTED is entered by TRAP HALT and by nothing else, and a HALTED core stays as it is (R30, R115).
The second part is D19, in the form of log entry 2. -/
def Obligations.OnlyTrapHaltHalts : Prop :=
  (∀ s t : State, s.run = .running → step s = .next t →
    (t.run = .halted ↔ decode s.fetch.1 = .trapHalt)) ∧
  (∀ s : State, s.run = .halted → step s = .next s)

/-- Whatever the host appends and when, a HALTED core keeps all its state but the input queue (D19, log
entry 2). -/
def Obligations.HaltedIsFinalUnderEverySchedule : Prop :=
  ∀ (schedule : List (List Byte)) (s : State), s.run = .halted →
    runSchedule schedule s = .next (s.arrive schedule.flatten)

/-! ## Rules over all instructions -/

/-- Every step keeps memory in canonical form: equal contents stay equal data, and no address outside the
65536 is ever listed. The form is the model's (log entry 1). -/
def Obligations.StepKeepsMemoryCanonical : Prop :=
  ∀ s t : State, s.Inv → step s = .next t → t.Inv

/-- COND is written only by the instructions that set flags (R27), and by each of them from its
destination register as the instruction left it (R26); GETC and IN when they complete. -/
def Obligations.CondIsWrittenOnlyByFlagSetters : Prop :=
  ∀ s t : State, s.Inv → s.run = .running → ¬ s.Waits → step s = .next t →
    (t.cond ≠ s.cond → SetsFlags (decode s.fetch.1)) ∧
    (∀ r, SetsFlags (decode s.fetch.1) → destination (decode s.fetch.1) = some r →
      t.FlagsOf (t.reg r))

/-- BR is the only reader of COND (R27): with another COND every other instruction does the same to all
the rest of the state. -/
def Obligations.OnlyBranchReadsCond : Prop :=
  ∀ (i : Instr) (s t : State) (c : Cond), (∀ nzp off, i ≠ .br nzp off) → exec i s = .next t →
    ∃ u, exec i { s with cond := c } = .next u ∧ { u with cond := t.cond } = t

/-- A general register changes only as the destination of its instruction: the destination field, R7 of
JSR and JSRR, R0 of GETC and IN (R20, R21, R161). That no TRAP writes R7 is D7. -/
def Obligations.RegistersChangeOnlyAsDestinations : Prop :=
  ∀ (s t : State) (r : Reg), step s = .next t → t.reg r ≠ s.reg r →
    s.run = .running ∧ destination (decode s.fetch.1) = some r

/-- A cell of memory changes only by the store of the instruction or by the keyboard latch, which touches
0xFE00 and 0xFE02 alone (R55, R72, R139, R161). -/
def Obligations.MemoryChangesOnlyByStoreOrLatch : Prop :=
  ∀ (s t : State) (a : Nat), s.Inv → step s = .next t → t.mem.read a ≠ s.mem.read a →
    s.run = .running ∧ (a = 0xFE00 ∨ a = 0xFE02 ∨
      ∃ w, storeAddress (decode s.fetch.1) s.fetch.2 = some w ∧ a = w.toNat)

/-- Output is produced only by OUT, PUTS, IN, PUTSP and HALT (R198). -/
def Obligations.OutputComesOnlyFromTheTrapServices : Prop :=
  ∀ s t : State, step s = .next t → t.conOut ≠ s.conOut →
    s.run = .running ∧ Outputs (decode s.fetch.1)

/-- A step takes input only from the front of `con_in`, and only appends to `con_out` and `diag` (R33,
R182); the parameters never change. The queues are D10, the parameters log entry 4. -/
def Obligations.StepsOnlyExtendTheTraces : Prop :=
  ∀ s t : State, step s = .next t →
    (∃ taken, s.conIn = taken ++ t.conIn) ∧ (∃ out, t.conOut = s.conOut ++ out) ∧
      (∃ words, t.diag = s.diag ++ words) ∧ t.par = s.par

/-- Nothing depends on `con_out` or `diag` (R35, R182): whatever they already hold, a run under any
schedule goes the same way and adds the same. Rests on D12, D18. -/
def Obligations.TracesAreNeverRead : Prop :=
  ∀ (schedule : List (List Byte)) (s t : State) (out : List ConEvent) (words : List Word),
    runSchedule schedule s = .next t →
      runSchedule schedule { s with conOut := out ++ s.conOut, diag := words ++ s.diag } =
        .next { t with conOut := out ++ t.conOut, diag := words ++ t.diag }
end

