-- ==== Sys2Proof/Laws/Bits.lean ====
section
/-!
SUPPORT. Sign extension: the formula of R11 agrees with the library's, at the widths of the fields.
-/

namespace Sys2Proof.Machine

/-- At the widths R11 allows, `sext_16` is the library's sign extension. -/
theorem sext16_eq_signExtend {n : Nat} (f : BitVec n) (hn : 1 ≤ n) (hw : n ≤ 16) :
    sext16 f = f.signExtend 16 := by
  apply BitVec.eq_of_getLsbD_eq
  intro i hi
  simp only [sext16, signExtend, BitVec.getLsbD_signExtend, BitVec.getLsbD_setWidth,
    BitVec.msb_eq_getLsbD_last]
  have hm : n - 1 < 16 := by omega
  simp only [hm, decide_true, Bool.true_and, hi]
  by_cases hin : i < n
  · split <;> simp [hin, hi]
  · have h0 : f.getLsbD i = false := BitVec.getLsbD_of_ge _ _ (by omega)
    split
    · rename_i h
      have h1 : (0xFFFF#16).getLsbD (i - n) = true := by
        have : i - n < 16 := by omega
        generalize i - n = j at this
        interval_cases j <;> rfl
      simp [hin, hi, h0, h1, h]
    · rename_i h
      simp [h0, hi] at h ⊢
      exact h

end Sys2Proof.Machine
end

