-- ==== Sys2Proof/Laws/Decode.lean ====
section
/-!
SUPPORT. How the encoder's fields lie: one field in the Word, and what masking leaves of it.
-/

namespace Sys2Proof

/-- Bit `k` of a placed field is bit `k - lo` of the field. -/
theorem getLsbD_fieldAt {n : Nat} (f : BitVec n) (lo k : Nat) :
    (fieldAt f lo).getLsbD k = (decide (k < 16) && !decide (k < lo) && f.getLsbD (k - lo)) := by
  simp only [fieldAt, BitVec.getLsbD_shiftLeft, BitVec.getLsbD_setWidth]
  by_cases hk : k < 16
  · have : k - lo < 16 := by omega
    simp [hk, this]
  · simp [hk]

/-- A mask that has no bit where the field lies leaves nothing of it. -/
theorem fieldAt_and_eq_zero {n : Nat} (f : BitVec n) (lo : Nat) (mask : Word)
    (h : ∀ j, j < n → mask.getLsbD (lo + j) = false) : fieldAt f lo &&& mask = 0 := by
  apply BitVec.eq_of_getLsbD_eq
  intro k _
  rw [BitVec.getLsbD_and, getLsbD_fieldAt]
  by_cases hlo : k < lo
  · simp [hlo]
  · by_cases hn : k - lo < n
    · have := h (k - lo) hn
      rw [show lo + (k - lo) = k by omega] at this
      simp [this]
    · simp [BitVec.getLsbD_of_ge f _ (Nat.not_lt.1 hn)]

theorem regAt_and_eq_zero (r : Reg) (lo : Nat) (mask : Word)
    (h : ∀ j, j < 3 → mask.getLsbD (lo + j) = false) : regAt r lo &&& mask = 0 :=
  fieldAt_and_eq_zero _ lo mask h

/-- A field outside the mask does not change what the mask selects. -/
theorem or_and_of_and_eq_zero {base field mask : Word} (h : field &&& mask = 0) :
    (base ||| field) &&& mask = base &&& mask := by
  rw [BitVec.and_comm, BitVec.and_or_distrib_left, BitVec.and_comm mask field, h,
    BitVec.and_comm mask base]
  exact BitVec.or_zero

/-- The three bits of a register number read back as the number. -/
theorem toFin_ofFin (r : Reg) : (BitVec.ofFin r : BitVec 3).toFin = r := rfl

end Sys2Proof
end

