-- ==== Sys2Proof/Laws/State.lean ====
section
/-!
SUPPORT. What each update of the state leaves in each field: one lemma per field per update, true by
unfolding, so that no later proof unfolds a record update.
-/

namespace Sys2Proof.Machine

variable (s : State)

/-! ## setReg -/

@[simp] theorem State.setReg_regs (r : Reg) (v : Word) : (s.setReg r v).regs = s.regs.set r v := rfl
@[simp] theorem State.setReg_pc (r : Reg) (v : Word) : (s.setReg r v).pc = s.pc := rfl
@[simp] theorem State.setReg_cond (r : Reg) (v : Word) : (s.setReg r v).cond = s.cond := rfl
@[simp] theorem State.setReg_run (r : Reg) (v : Word) : (s.setReg r v).run = s.run := rfl
@[simp] theorem State.setReg_mem (r : Reg) (v : Word) : (s.setReg r v).mem = s.mem := rfl
@[simp] theorem State.setReg_conIn (r : Reg) (v : Word) : (s.setReg r v).conIn = s.conIn := rfl
@[simp] theorem State.setReg_conOut (r : Reg) (v : Word) : (s.setReg r v).conOut = s.conOut := rfl
@[simp] theorem State.setReg_diag (r : Reg) (v : Word) : (s.setReg r v).diag = s.diag := rfl
@[simp] theorem State.setReg_par (r : Reg) (v : Word) : (s.setReg r v).par = s.par := rfl

/-! ## setPc -/

@[simp] theorem State.setPc_regs (t : Word) : (s.setPc t).regs = s.regs := rfl
@[simp] theorem State.setPc_pc (t : Word) : (s.setPc t).pc = t := rfl
@[simp] theorem State.setPc_cond (t : Word) : (s.setPc t).cond = s.cond := rfl
@[simp] theorem State.setPc_run (t : Word) : (s.setPc t).run = s.run := rfl
@[simp] theorem State.setPc_mem (t : Word) : (s.setPc t).mem = s.mem := rfl
@[simp] theorem State.setPc_conIn (t : Word) : (s.setPc t).conIn = s.conIn := rfl
@[simp] theorem State.setPc_conOut (t : Word) : (s.setPc t).conOut = s.conOut := rfl
@[simp] theorem State.setPc_diag (t : Word) : (s.setPc t).diag = s.diag := rfl
@[simp] theorem State.setPc_par (t : Word) : (s.setPc t).par = s.par := rfl

/-! ## conWrite -/

@[simp] theorem State.conWrite_regs (b : Byte) : (s.conWrite b).regs = s.regs := rfl
@[simp] theorem State.conWrite_pc (b : Byte) : (s.conWrite b).pc = s.pc := rfl
@[simp] theorem State.conWrite_cond (b : Byte) : (s.conWrite b).cond = s.cond := rfl
@[simp] theorem State.conWrite_run (b : Byte) : (s.conWrite b).run = s.run := rfl
@[simp] theorem State.conWrite_mem (b : Byte) : (s.conWrite b).mem = s.mem := rfl
@[simp] theorem State.conWrite_conIn (b : Byte) : (s.conWrite b).conIn = s.conIn := rfl
@[simp] theorem State.conWrite_conOut (b : Byte) : (s.conWrite b).conOut = s.conOut ++ [.write b] :=
    rfl
@[simp] theorem State.conWrite_diag (b : Byte) : (s.conWrite b).diag = s.diag := rfl
@[simp] theorem State.conWrite_par (b : Byte) : (s.conWrite b).par = s.par := rfl

/-! ## conWrites -/

@[simp] theorem State.conWrites_regs (bs : List Byte) : (s.conWrites bs).regs = s.regs := rfl
@[simp] theorem State.conWrites_pc (bs : List Byte) : (s.conWrites bs).pc = s.pc := rfl
@[simp] theorem State.conWrites_cond (bs : List Byte) : (s.conWrites bs).cond = s.cond := rfl
@[simp] theorem State.conWrites_run (bs : List Byte) : (s.conWrites bs).run = s.run := rfl
@[simp] theorem State.conWrites_mem (bs : List Byte) : (s.conWrites bs).mem = s.mem := rfl
@[simp] theorem State.conWrites_conIn (bs : List Byte) : (s.conWrites bs).conIn = s.conIn := rfl
@[simp] theorem State.conWrites_conOut (bs : List Byte) : (s.conWrites bs).conOut = s.conOut ++ bs.map .write :=
    rfl
@[simp] theorem State.conWrites_diag (bs : List Byte) : (s.conWrites bs).diag = s.diag := rfl
@[simp] theorem State.conWrites_par (bs : List Byte) : (s.conWrites bs).par = s.par := rfl

/-! ## conFlush -/

@[simp] theorem State.conFlush_regs : (s.conFlush).regs = s.regs := rfl
@[simp] theorem State.conFlush_pc : (s.conFlush).pc = s.pc := rfl
@[simp] theorem State.conFlush_cond : (s.conFlush).cond = s.cond := rfl
@[simp] theorem State.conFlush_run : (s.conFlush).run = s.run := rfl
@[simp] theorem State.conFlush_mem : (s.conFlush).mem = s.mem := rfl
@[simp] theorem State.conFlush_conIn : (s.conFlush).conIn = s.conIn := rfl
@[simp] theorem State.conFlush_conOut : (s.conFlush).conOut = s.conOut ++ [.flush] := rfl
@[simp] theorem State.conFlush_diag : (s.conFlush).diag = s.diag := rfl
@[simp] theorem State.conFlush_par : (s.conFlush).par = s.par := rfl

/-! ## memWrite -/

@[simp] theorem State.memWrite_regs (a v : Word) : (s.memWrite a v).regs = s.regs := rfl
@[simp] theorem State.memWrite_pc (a v : Word) : (s.memWrite a v).pc = s.pc := rfl
@[simp] theorem State.memWrite_cond (a v : Word) : (s.memWrite a v).cond = s.cond := rfl
@[simp] theorem State.memWrite_run (a v : Word) : (s.memWrite a v).run = s.run := rfl
@[simp] theorem State.memWrite_mem (a v : Word) : (s.memWrite a v).mem = s.mem.write a.toNat v :=
    rfl
@[simp] theorem State.memWrite_conIn (a v : Word) : (s.memWrite a v).conIn = s.conIn := rfl
@[simp] theorem State.memWrite_conOut (a v : Word) : (s.memWrite a v).conOut = s.conOut := rfl
@[simp] theorem State.memWrite_diag (a v : Word) : (s.memWrite a v).diag = s.diag := rfl
@[simp] theorem State.memWrite_par (a v : Word) : (s.memWrite a v).par = s.par := rfl

/-! ## unimplemented -/

@[simp] theorem State.unimplemented_regs (ir : Word) : (s.unimplemented ir).regs = s.regs := rfl
@[simp] theorem State.unimplemented_pc (ir : Word) : (s.unimplemented ir).pc = s.pc := rfl
@[simp] theorem State.unimplemented_cond (ir : Word) : (s.unimplemented ir).cond = s.cond := rfl
@[simp] theorem State.unimplemented_run (ir : Word) : (s.unimplemented ir).run = s.run := rfl
@[simp] theorem State.unimplemented_mem (ir : Word) : (s.unimplemented ir).mem = s.mem := rfl
@[simp] theorem State.unimplemented_conIn (ir : Word) : (s.unimplemented ir).conIn = s.conIn := rfl
@[simp] theorem State.unimplemented_conOut (ir : Word) : (s.unimplemented ir).conOut = s.conOut :=
    rfl
@[simp] theorem State.unimplemented_diag (ir : Word) : (s.unimplemented ir).diag = s.diag ++ [ir] :=
    rfl
@[simp] theorem State.unimplemented_par (ir : Word) : (s.unimplemented ir).par = s.par := rfl

/-! ## notYet -/

@[simp] theorem State.notYet_regs : (s.notYet).regs = s.regs := rfl
@[simp] theorem State.notYet_pc : (s.notYet).pc = s.pc - 1 := rfl
@[simp] theorem State.notYet_cond : (s.notYet).cond = s.cond := rfl
@[simp] theorem State.notYet_run : (s.notYet).run = s.run := rfl
@[simp] theorem State.notYet_mem : (s.notYet).mem = s.mem := rfl
@[simp] theorem State.notYet_conIn : (s.notYet).conIn = s.conIn := rfl
@[simp] theorem State.notYet_conOut : (s.notYet).conOut = s.conOut := rfl
@[simp] theorem State.notYet_diag : (s.notYet).diag = s.diag := rfl
@[simp] theorem State.notYet_par : (s.notYet).par = s.par := rfl

/-! ## setcc -/

@[simp] theorem State.setcc_regs (r : Reg) : (s.setcc r).regs = s.regs := rfl
@[simp] theorem State.setcc_pc (r : Reg) : (s.setcc r).pc = s.pc := rfl
@[simp] theorem State.setcc_cond (r : Reg) : (s.setcc r).cond = condOf (s.reg r) := rfl
@[simp] theorem State.setcc_run (r : Reg) : (s.setcc r).run = s.run := rfl
@[simp] theorem State.setcc_mem (r : Reg) : (s.setcc r).mem = s.mem := rfl
@[simp] theorem State.setcc_conIn (r : Reg) : (s.setcc r).conIn = s.conIn := rfl
@[simp] theorem State.setcc_conOut (r : Reg) : (s.setcc r).conOut = s.conOut := rfl
@[simp] theorem State.setcc_diag (r : Reg) : (s.setcc r).diag = s.diag := rfl
@[simp] theorem State.setcc_par (r : Reg) : (s.setcc r).par = s.par := rfl

/-! ## setRegCC -/

@[simp] theorem State.setRegCC_regs (r : Reg) (v : Word) : (s.setRegCC r v).regs = s.regs.set r v :=
    rfl
@[simp] theorem State.setRegCC_pc (r : Reg) (v : Word) : (s.setRegCC r v).pc = s.pc := rfl
@[simp] theorem State.setRegCC_run (r : Reg) (v : Word) : (s.setRegCC r v).run = s.run := rfl
@[simp] theorem State.setRegCC_mem (r : Reg) (v : Word) : (s.setRegCC r v).mem = s.mem := rfl
@[simp] theorem State.setRegCC_conIn (r : Reg) (v : Word) : (s.setRegCC r v).conIn = s.conIn := rfl
@[simp] theorem State.setRegCC_conOut (r : Reg) (v : Word) : (s.setRegCC r v).conOut = s.conOut :=
    rfl
@[simp] theorem State.setRegCC_diag (r : Reg) (v : Word) : (s.setRegCC r v).diag = s.diag := rfl
@[simp] theorem State.setRegCC_par (r : Reg) (v : Word) : (s.setRegCC r v).par = s.par := rfl

/-! ## arrive -/

@[simp] theorem State.arrive_regs (bs : List Byte) : (s.arrive bs).regs = s.regs := rfl
@[simp] theorem State.arrive_pc (bs : List Byte) : (s.arrive bs).pc = s.pc := rfl
@[simp] theorem State.arrive_cond (bs : List Byte) : (s.arrive bs).cond = s.cond := rfl
@[simp] theorem State.arrive_run (bs : List Byte) : (s.arrive bs).run = s.run := rfl
@[simp] theorem State.arrive_mem (bs : List Byte) : (s.arrive bs).mem = s.mem := rfl
@[simp] theorem State.arrive_conIn (bs : List Byte) : (s.arrive bs).conIn = s.conIn ++ bs := rfl
@[simp] theorem State.arrive_conOut (bs : List Byte) : (s.arrive bs).conOut = s.conOut := rfl
@[simp] theorem State.arrive_diag (bs : List Byte) : (s.arrive bs).diag = s.diag := rfl
@[simp] theorem State.arrive_par (bs : List Byte) : (s.arrive bs).par = s.par := rfl

/-! ## link -/

@[simp] theorem State.link_regs : (s.link).regs = s.regs.set 7 s.pc := rfl
@[simp] theorem State.link_pc : (s.link).pc = s.pc := rfl
@[simp] theorem State.link_cond : (s.link).cond = s.cond := rfl
@[simp] theorem State.link_run : (s.link).run = s.run := rfl
@[simp] theorem State.link_mem : (s.link).mem = s.mem := rfl
@[simp] theorem State.link_conIn : (s.link).conIn = s.conIn := rfl
@[simp] theorem State.link_conOut : (s.link).conOut = s.conOut := rfl
@[simp] theorem State.link_diag : (s.link).diag = s.diag := rfl
@[simp] theorem State.link_par : (s.link).par = s.par := rfl

/-! ## Registers -/

@[simp] theorem State.reg_setReg_same (r : Reg) (v : Word) : (s.setReg r v).reg r = v := by
  simp [State.reg, State.setReg]

@[simp] theorem State.reg_setReg_other {r q : Reg} (v : Word) (h : q ≠ r) :
    (s.setReg r v).reg q = s.reg q := by
  simp only [State.reg, State.setReg, Fin.getElem_fin]
  exact Vector.getElem_set_ne _ _ (fun e => h (Fin.ext e.symm))

@[simp] theorem State.setRegCC_cond (r : Reg) (v : Word) : (s.setRegCC r v).cond = condOf v := by
  simp [State.setRegCC]

@[simp] theorem State.reg_setRegCC_same (r : Reg) (v : Word) : (s.setRegCC r v).reg r = v :=
  s.reg_setReg_same r v

@[simp] theorem State.reg_setRegCC_other {r q : Reg} (v : Word) (h : q ≠ r) :
    (s.setRegCC r v).reg q = s.reg q :=
  s.reg_setReg_other v h

/-- Two states with the same register file agree on every register. -/
theorem State.reg_congr {s t : State} (h : t.regs = s.regs) (r : Reg) : t.reg r = s.reg r := by
  simp [State.reg, h]

@[simp] theorem State.reg_reset (r : Reg) : State.reset.reg r = 0 := by
  simp [State.reg, State.reset]

end Sys2Proof.Machine
end

