-- ==== Sys2Proof/Laws/Flags.lean ====
section
/-!
SUPPORT. The flag of a Word, the test of BR, and the bytes of a Word.
-/

namespace Sys2Proof.Machine

theorem condOf_eq_zro_iff (w : Word) : condOf w = .zro ↔ w = 0 := by
  unfold condOf
  by_cases h : w = 0x0000
  · simp [h]
  · rw [if_neg h]
    split <;> simp_all

theorem condOf_eq_neg_iff (w : Word) : condOf w = .neg ↔ w.msb = true := by
  rw [BitVec.msb_eq_getLsbD_last]
  unfold condOf
  by_cases h : w = 0x0000
  · simp [h]
  · rw [if_neg h]
    split <;> simp_all

theorem condOf_eq_pos_iff (w : Word) : condOf w = .pos ↔ w ≠ 0 ∧ w.msb = false := by
  rw [BitVec.msb_eq_getLsbD_last]
  unfold condOf
  by_cases h : w = 0x0000
  · simp [h]
  · rw [if_neg h]
    split <;> simp_all

/-- An instruction that ends with `setcc` leaves the flag of its result. -/
theorem State.flagsOf_setRegCC (s : State) (r : Reg) (v : Word) : (s.setRegCC r v).FlagsOf v := by
  simp [State.FlagsOf, condOf_eq_zro_iff, condOf_eq_neg_iff, condOf_eq_pos_iff]

theorem State.keepsRegs_setRegCC (s : State) (r : Reg) (v : Word) :
    s.KeepsRegs (s.setRegCC r v) [r] := fun _ hq =>
  s.reg_setRegCC_other v (by simpa using hq)

/-- The bitwise test of BR is the condition on the enumeration. -/
theorem brTaken_iff (nzp : BitVec 3) (c : Cond) : brTaken nzp c = true ↔ BrCondition nzp c := by
  revert nzp
  cases c <;> unfold brTaken condBits BrCondition <;> decide

theorem lowByte_eq_setWidth (w : Word) : lowByte w = w.setWidth 8 := by
  apply BitVec.eq_of_getLsbD_eq
  intro i hi
  simp [lowByte, hi]

theorem highByte_eq_shift (w : Word) : highByte w = (w >>> 8 : Word).setWidth 8 := by
  apply BitVec.eq_of_getLsbD_eq
  intro i hi
  simp [highByte, hi]

theorem toNat_zext16 (c : Byte) : (zext16 c).toNat = c.toNat := by
  have := c.isLt
  simp only [zext16, BitVec.toNat_setWidth]
  omega

end Sys2Proof.Machine
end

