-- ==== Sys2Proof/Laws/Memory.lean ====
section
/-!
SUPPORT. The memory array: a read after a write, the canonical form, and that equal contents are equal
lists.
-/

namespace Sys2Proof.Machine

@[simp] theorem Memory.read_nil (a : Nat) : Memory.read [] a = unlisted := rfl

theorem Memory.read_cons (b : Nat) (v : Word) (m : Memory) (a : Nat) :
    Memory.read ((b, v) :: m) a = if a = b then v else Memory.read m a := rfl

/-- Below every listed address the memory reads as unlisted. -/
theorem Memory.read_of_lt {m : Memory} {a : Nat} (h : ∀ c ∈ m, a < c.1) :
    Memory.read m a = unlisted := by
  induction m with
  | nil => rfl
  | cons c m ih =>
    obtain ⟨b, v⟩ := c
    have hb : a < b := h (b, v) (by simp)
    rw [Memory.read_cons, if_neg (by omega)]
    exact ih fun c hc => h c (by simp [hc])

/-- The pairs above the head of a memory whose addresses rise. -/
theorem Memory.lt_of_pairwise {b : Nat} {v : Word} {m : Memory}
    (h : ((b, v) :: m).Pairwise fun x y => x.1 < y.1) : ∀ c ∈ m, b < c.1 :=
  fun c hc => (List.pairwise_cons.1 h).1 c hc

theorem Memory.read_consIf {m : Memory} {a : Nat} (v : Word) (h : ∀ c ∈ m, a < c.1) (b : Nat) :
    Memory.read (Memory.cons a v m) b = if b = a then v else Memory.read m b := by
  unfold Memory.cons
  split
  · rename_i hv
    split
    · rename_i hb
      rw [hb, hv, Memory.read_of_lt h]
    · rfl
  · rfl

/-- A read after a write: the written Word at the address, every other cell as before. -/
theorem Memory.read_write {m : Memory} (hm : m.Pairwise fun x y => x.1 < y.1) (a : Nat) (v : Word)
    (b : Nat) : (m.write a v).read b = if b = a then v else m.read b := by
  induction m with
  | nil => exact Memory.read_consIf v (by simp) b
  | cons c m ih =>
    obtain ⟨k, w⟩ := c
    have hk := Memory.lt_of_pairwise hm
    have hm' := (List.pairwise_cons.1 hm).2
    unfold Memory.write
    split
    · rename_i hak
      refine Memory.read_consIf v ?_ b
      intro c hc
      rcases List.mem_cons.1 hc with rfl | hc
      · exact hak
      · exact lt_trans hak (hk c hc)
    · split
      · rename_i hak
        subst hak
        rw [Memory.read_consIf v hk b, Memory.read_cons]
        split <;> simp_all
      · rename_i h1 h2
        rw [Memory.read_cons, Memory.read_cons, ih hm']
        by_cases hbk : b = k
        · subst hbk; rw [if_pos rfl, if_neg (Ne.symm h2), if_pos rfl]
        · rw [if_neg hbk, if_neg hbk]

/-- Every pair of a written memory is the written one or an old one. -/
theorem Memory.mem_write {m : Memory} {a : Nat} {v : Word} {c : Nat × Word} (h : c ∈ m.write a v) :
    (c = (a, v) ∧ v ≠ unlisted) ∨ c ∈ m := by
  induction m with
  | nil =>
    simp only [Memory.write, Memory.cons] at h
    split at h <;> simp_all
  | cons d m ih =>
    obtain ⟨k, w⟩ := d
    simp only [Memory.write, Memory.cons] at h
    split at h
    · split at h
      · exact .inr h
      · rcases List.mem_cons.1 h with rfl | h
        · exact .inl ⟨rfl, ‹_›⟩
        · exact .inr h
    · split at h
      · split at h
        · exact .inr (List.mem_cons_of_mem _ h)
        · rcases List.mem_cons.1 h with rfl | h
          · exact .inl ⟨rfl, ‹_›⟩
          · exact .inr (List.mem_cons_of_mem _ h)
      · rcases List.mem_cons.1 h with rfl | h
        · exact .inr (by simp)
        · rcases ih h with h | h
          · exact .inl h
          · exact .inr (List.mem_cons_of_mem _ h)

theorem Memory.pairwise_cons_of_lt {m : Memory} {a : Nat} (v : Word)
    (hm : m.Pairwise fun x y => x.1 < y.1) (h : ∀ c ∈ m, a < c.1) :
    (Memory.cons a v m).Pairwise fun x y => x.1 < y.1 := by
  unfold Memory.cons
  split
  · exact hm
  · exact List.pairwise_cons.2 ⟨h, hm⟩

/-- A write keeps the addresses strictly rising. -/
theorem Memory.write_pairwise {m : Memory} (hm : m.Pairwise fun x y => x.1 < y.1) (a : Nat)
    (v : Word) : (m.write a v).Pairwise fun x y => x.1 < y.1 := by
  induction m with
  | nil => exact Memory.pairwise_cons_of_lt v hm (by simp)
  | cons c m ih =>
    obtain ⟨k, w⟩ := c
    have hk := Memory.lt_of_pairwise hm
    have hm' := (List.pairwise_cons.1 hm).2
    unfold Memory.write
    split
    · rename_i hak
      refine Memory.pairwise_cons_of_lt v hm ?_
      intro c hc
      rcases List.mem_cons.1 hc with rfl | hc
      · exact hak
      · exact lt_trans hak (hk c hc)
    · split
      · rename_i hak
        exact Memory.pairwise_cons_of_lt v hm' (hak ▸ hk)
      · refine List.pairwise_cons.2 ⟨?_, ih hm'⟩
        intro c hc
        rcases Memory.mem_write hc with ⟨rfl, -⟩ | hc
        · show k < a
          omega
        · exact hk c hc

/-- A write at one of the 65536 addresses keeps the canonical form. -/
theorem Memory.write_wf {m : Memory} (hm : m.wf) {a : Nat} (ha : a < Config.memWords) (v : Word) :
    (m.write a v).wf := by
  refine ⟨Memory.write_pairwise hm.1 a v, fun c hc => ?_⟩
  rcases Memory.mem_write hc with ⟨rfl, hv⟩ | hc
  · exact ⟨ha, hv⟩
  · exact hm.2 c hc

theorem Memory.nil_wf : Memory.wf [] := by simp [Memory.wf]

/-- Canonical memories with the same contents are the same list. -/
theorem Memory.ext_of_wf {m n : Memory} (hm : m.wf) (hn : n.wf) (h : ∀ a, m.read a = n.read a) :
    m = n := by
  induction m generalizing n with
  | nil =>
    cases n with
    | nil => rfl
    | cons c n =>
      obtain ⟨b, v⟩ := c
      have h1 := h b
      rw [Memory.read_nil, Memory.read_cons, if_pos rfl] at h1
      exact absurd h1.symm (hn.2 (b, v) (by simp)).2
  | cons c m ih =>
    obtain ⟨a, v⟩ := c
    have hv := (hm.2 (a, v) (by simp)).2
    have hma := Memory.lt_of_pairwise hm.1
    cases n with
    | nil =>
      have h1 := h a
      rw [Memory.read_nil, Memory.read_cons, if_pos rfl] at h1
      exact absurd h1 hv
    | cons d n =>
      obtain ⟨b, w⟩ := d
      have hw := (hn.2 (b, w) (by simp)).2
      have hnb := Memory.lt_of_pairwise hn.1
      have hab : a = b := by
        rcases Nat.lt_trichotomy a b with hlt | heq | hlt
        · have h1 := h a
          rw [Memory.read_cons, if_pos rfl, Memory.read_of_lt (m := (b, w) :: n)] at h1
          · exact absurd h1 hv
          · intro c hc
            rcases List.mem_cons.1 hc with rfl | hc
            · exact hlt
            · exact lt_trans hlt (hnb c hc)
        · exact heq
        · have h1 := h b
          rw [Memory.read_cons (m := n), if_pos rfl, Memory.read_of_lt (m := (a, v) :: m)] at h1
          · exact absurd h1.symm hw
          · intro c hc
            rcases List.mem_cons.1 hc with rfl | hc
            · exact hlt
            · exact lt_trans hlt (hma c hc)
      subst hab
      have hvw : v = w := by
        have h1 := h a
        rwa [Memory.read_cons, if_pos rfl, Memory.read_cons, if_pos rfl] at h1
      subst hvw
      congr 1
      refine ih ⟨(List.pairwise_cons.1 hm.1).2, fun c hc => hm.2 c (by simp [hc])⟩
        ⟨(List.pairwise_cons.1 hn.1).2, fun c hc => hn.2 c (by simp [hc])⟩ fun x => ?_
      have h1 := h x
      rw [Memory.read_cons, Memory.read_cons] at h1
      by_cases hx : x = a
      · subst hx
        rw [Memory.read_of_lt hma, Memory.read_of_lt hnb]
      · rwa [if_neg hx, if_neg hx] at h1

end Sys2Proof.Machine
end

