-- ==== Sys2Proof/Laws/Ops.lean ====
section
/-!
SUPPORT. What each shared operation can do, said once: the console, `MemRead`, `MemWrite`, the fetch, and
the string loop.
-/

namespace Sys2Proof.Machine

variable (s : State)

/-! ## The console -/

theorem State.conRead_of_nil {s : State} (h : s.conIn = []) : s.conRead = none := by
  simp [State.conRead, h]

theorem State.conRead_of_cons {s : State} {c : Byte} {rest : List Byte} (h : s.conIn = c :: rest) :
    s.conRead = some (c, { s with conIn := rest }) := by
  simp [State.conRead, h]

/-! ## The poll of the keyboard -/

theorem State.pollKeyboard_of_nil {s : State} (h : s.conIn = []) :
    s.pollKeyboard = s.memWrite kbdStatus 0x0000 := by
  simp [State.pollKeyboard, State.conRead_of_nil h]

theorem State.pollKeyboard_of_cons {s : State} {c : Byte} {rest : List Byte}
    (h : s.conIn = c :: rest) :
    s.pollKeyboard =
      (({ s with conIn := rest }).memWrite kbdStatus kbdReady).memWrite kbdData (zext16 c) := by
  simp [State.pollKeyboard, State.conRead_of_cons h]

@[simp] theorem State.pollKeyboard_regs : s.pollKeyboard.regs = s.regs := by
  unfold State.pollKeyboard State.conRead; cases s.conIn <;> rfl

@[simp] theorem State.pollKeyboard_pc : s.pollKeyboard.pc = s.pc := by
  unfold State.pollKeyboard State.conRead; cases s.conIn <;> rfl

@[simp] theorem State.pollKeyboard_cond : s.pollKeyboard.cond = s.cond := by
  unfold State.pollKeyboard State.conRead; cases s.conIn <;> rfl

@[simp] theorem State.pollKeyboard_run : s.pollKeyboard.run = s.run := by
  unfold State.pollKeyboard State.conRead; cases s.conIn <;> rfl

@[simp] theorem State.pollKeyboard_conOut : s.pollKeyboard.conOut = s.conOut := by
  unfold State.pollKeyboard State.conRead; cases s.conIn <;> rfl

@[simp] theorem State.pollKeyboard_diag : s.pollKeyboard.diag = s.diag := by
  unfold State.pollKeyboard State.conRead; cases s.conIn <;> rfl

@[simp] theorem State.pollKeyboard_par : s.pollKeyboard.par = s.par := by
  unfold State.pollKeyboard State.conRead; cases s.conIn <;> rfl

/-! ## MemWrite -/

theorem State.memWrite_wf {s : State} (h : s.mem.wf) (a v : Word) : (s.memWrite a v).mem.wf :=
  Memory.write_wf h a.isLt v

/-- `MemWrite` changes one cell. -/
theorem State.read_memWrite {s : State} (h : s.mem.wf) (a v : Word) (b : Nat) :
    (s.memWrite a v).mem.read b = if b = a.toNat then v else s.mem.read b :=
  Memory.read_write h.1 a.toNat v b

/-! ## MemRead -/

/-- A read of any cell but KBD_STATUS is plain. -/
theorem State.memRead_plain {a : Word} (h : a ≠ kbdStatus) :
    s.memRead a = (s.mem.read a.toNat, s) := by
  simp [State.memRead, h]

theorem State.memRead_status :
    s.memRead kbdStatus = (s.pollKeyboard.mem.read kbdStatus.toNat, s.pollKeyboard) := by
  simp [State.memRead]

theorem State.memRead_snd (a : Word) :
    (s.memRead a).2 = s ∨ a = kbdStatus ∧ (s.memRead a).2 = s.pollKeyboard := by
  unfold State.memRead
  split
  · exact .inr ⟨‹_›, rfl⟩
  · exact .inl rfl

@[simp] theorem State.memRead_regs (a : Word) : (s.memRead a).2.regs = s.regs := by
  rcases s.memRead_snd a with h | ⟨-, h⟩ <;> simp [h]

@[simp] theorem State.memRead_pc (a : Word) : (s.memRead a).2.pc = s.pc := by
  rcases s.memRead_snd a with h | ⟨-, h⟩ <;> simp [h]

@[simp] theorem State.memRead_cond (a : Word) : (s.memRead a).2.cond = s.cond := by
  rcases s.memRead_snd a with h | ⟨-, h⟩ <;> simp [h]

@[simp] theorem State.memRead_run (a : Word) : (s.memRead a).2.run = s.run := by
  rcases s.memRead_snd a with h | ⟨-, h⟩ <;> simp [h]

@[simp] theorem State.memRead_conOut (a : Word) : (s.memRead a).2.conOut = s.conOut := by
  rcases s.memRead_snd a with h | ⟨-, h⟩ <;> simp [h]

@[simp] theorem State.memRead_diag (a : Word) : (s.memRead a).2.diag = s.diag := by
  rcases s.memRead_snd a with h | ⟨-, h⟩ <;> simp [h]

@[simp] theorem State.memRead_par (a : Word) : (s.memRead a).2.par = s.par := by
  rcases s.memRead_snd a with h | ⟨-, h⟩ <;> simp [h]

theorem State.pollKeyboard_wf {s : State} (h : s.mem.wf) : s.pollKeyboard.mem.wf := by
  rcases hc : s.conIn with _ | ⟨c, rest⟩
  · rw [State.pollKeyboard_of_nil hc]
    exact State.memWrite_wf h _ _
  · rw [State.pollKeyboard_of_cons hc]
    exact State.memWrite_wf (State.memWrite_wf h _ _) _ _

/-- `MemRead` keeps the canonical form of memory. -/
theorem State.memRead_wf {s : State} (h : s.mem.wf) (a : Word) : (s.memRead a).2.mem.wf := by
  rcases s.memRead_snd a with e | ⟨-, e⟩ <;> rw [e]
  · exact h
  · exact State.pollKeyboard_wf h

/-- With no input waiting a read of KBD_STATUS answers 0 and changes that cell alone. -/
theorem State.read_poll_of_nil {s : State} (hm : s.mem.wf) (hc : s.conIn = []) (b : Nat) :
    s.pollKeyboard.mem.read b = if b = kbdStatus.toNat then 0 else s.mem.read b := by
  rw [State.pollKeyboard_of_nil hc, State.read_memWrite hm]

/-- With a byte waiting a read of KBD_STATUS makes that cell ready and latches the byte. -/
theorem State.read_poll_of_cons {s : State} (hm : s.mem.wf) {c : Byte} {rest : List Byte}
    (hc : s.conIn = c :: rest) (b : Nat) :
    s.pollKeyboard.mem.read b =
      if b = kbdData.toNat then zext16 c
      else if b = kbdStatus.toNat then kbdReady else s.mem.read b := by
  rw [State.pollKeyboard_of_cons hc,
    State.read_memWrite (State.memWrite_wf (s := { s with conIn := rest }) hm _ _),
    State.read_memWrite (s := { s with conIn := rest }) hm]

theorem State.pollKeyboard_conIn : s.pollKeyboard.conIn = s.conIn.tail := by
  rcases hc : s.conIn with _ | ⟨c, rest⟩
  · rw [State.pollKeyboard_of_nil hc]; simpa using hc
  · rw [State.pollKeyboard_of_cons hc]; rfl

/-- A `MemRead` consumes at most the first waiting byte. -/
theorem State.memRead_conIn (a : Word) :
    (s.memRead a).2.conIn = if a = kbdStatus then s.conIn.tail else s.conIn := by
  unfold State.memRead
  split
  · exact s.pollKeyboard_conIn
  · rfl

/-- A `MemRead` leaves every cell but the two of the keyboard as it was. -/
theorem State.read_memRead_other {s : State} (hm : s.mem.wf) (a : Word) {b : Nat}
    (h1 : b ≠ kbdStatus.toNat) (h2 : b ≠ kbdData.toNat) :
    (s.memRead a).2.mem.read b = s.mem.read b := by
  rcases s.memRead_snd a with e | ⟨-, e⟩ <;> rw [e]
  rcases hc : s.conIn with _ | ⟨c, rest⟩
  · rw [State.read_poll_of_nil hm hc, if_neg h1]
  · rw [State.read_poll_of_cons hm hc, if_neg h2, if_neg h1]

/-! ## The fetch -/

@[simp] theorem State.fetch_pc : s.fetch.2.pc = s.pc + 1 := rfl

@[simp] theorem State.fetch_regs : s.fetch.2.regs = s.regs := by simp [State.fetch]

@[simp] theorem State.fetch_cond : s.fetch.2.cond = s.cond := by simp [State.fetch]

@[simp] theorem State.fetch_run : s.fetch.2.run = s.run := by simp [State.fetch]

@[simp] theorem State.fetch_conOut : s.fetch.2.conOut = s.conOut := by simp [State.fetch]

@[simp] theorem State.fetch_diag : s.fetch.2.diag = s.diag := by simp [State.fetch]

@[simp] theorem State.fetch_par : s.fetch.2.par = s.par := by simp [State.fetch]

@[simp] theorem State.fetch_mem : s.fetch.2.mem = (s.memRead s.pc).2.mem := rfl

@[simp] theorem State.fetch_conIn : s.fetch.2.conIn = (s.memRead s.pc).2.conIn := rfl

theorem State.fetch_plain {s : State} (h : s.pc ≠ kbdStatus) :
    s.fetch = (s.mem.read s.pc.toNat, s.setPc (s.pc + 1)) := by
  simp [State.fetch, State.memRead_plain s h]

theorem State.fetch_wf {s : State} (h : s.mem.wf) : s.fetch.2.mem.wf :=
  State.memRead_wf h s.pc

/-! ## The step -/

theorem step_of_running {s : State} (h : s.run = .running) :
    step s = exec (decode s.fetch.1) s.fetch.2 := by
  simp [step, h]

theorem step_of_halted {s : State} (h : s.run = .halted) : step s = .next s := by
  simp [step, h, stayHalted]

/-! ## The string loop -/

section
variable (bytes : Word → List Byte)

theorem stringLoop_zero (a : Word) : stringLoop bytes 0 a s = s := rfl

theorem stringLoop_succ (fuel : Nat) (a : Word) : stringLoop bytes (fuel + 1) a s =
    if (s.memRead a).1 = 0x0000 then (s.memRead a).2
    else stringLoop bytes fuel (a + 1) ((s.memRead a).2.conWrites (bytes (s.memRead a).1)) := rfl

@[simp] theorem stringLoop_regs (fuel : Nat) (a : Word) (s : State) :
    (stringLoop bytes fuel a s).regs = s.regs := by
  induction fuel generalizing a s with
  | zero => rfl
  | succ n ih =>
    rw [stringLoop_succ]
    split
    · simp
    · rw [ih]; simp

@[simp] theorem stringLoop_pc (fuel : Nat) (a : Word) (s : State) :
    (stringLoop bytes fuel a s).pc = s.pc := by
  induction fuel generalizing a s with
  | zero => rfl
  | succ n ih =>
    rw [stringLoop_succ]
    split
    · simp
    · rw [ih]; simp

@[simp] theorem stringLoop_cond (fuel : Nat) (a : Word) (s : State) :
    (stringLoop bytes fuel a s).cond = s.cond := by
  induction fuel generalizing a s with
  | zero => rfl
  | succ n ih =>
    rw [stringLoop_succ]
    split
    · simp
    · rw [ih]; simp

@[simp] theorem stringLoop_run (fuel : Nat) (a : Word) (s : State) :
    (stringLoop bytes fuel a s).run = s.run := by
  induction fuel generalizing a s with
  | zero => rfl
  | succ n ih =>
    rw [stringLoop_succ]
    split
    · simp
    · rw [ih]; simp

@[simp] theorem stringLoop_diag (fuel : Nat) (a : Word) (s : State) :
    (stringLoop bytes fuel a s).diag = s.diag := by
  induction fuel generalizing a s with
  | zero => rfl
  | succ n ih =>
    rw [stringLoop_succ]
    split
    · simp
    · rw [ih]; simp

@[simp] theorem stringLoop_par (fuel : Nat) (a : Word) (s : State) :
    (stringLoop bytes fuel a s).par = s.par := by
  induction fuel generalizing a s with
  | zero => rfl
  | succ n ih =>
    rw [stringLoop_succ]
    split
    · simp
    · rw [ih]; simp

/-- The string loop keeps the canonical form of memory. -/
theorem stringLoop_wf (fuel : Nat) (a : Word) {s : State} (h : s.mem.wf) :
    (stringLoop bytes fuel a s).mem.wf := by
  induction fuel generalizing a s with
  | zero => exact h
  | succ n ih =>
    rw [stringLoop_succ]
    split
    · exact State.memRead_wf h a
    · exact ih (a + 1) (s := (s.memRead a).2.conWrites (bytes (s.memRead a).1))
        (by simpa using State.memRead_wf h a)

/-- The string loop only appends `Write` events to `con_out`. -/
theorem stringLoop_conOut (fuel : Nat) (a : Word) (s : State) :
    ∃ bs : List Byte, (stringLoop bytes fuel a s).conOut = s.conOut ++ bs.map .write := by
  induction fuel generalizing a s with
  | zero => exact ⟨[], by simp [stringLoop_zero]⟩
  | succ n ih =>
    rw [stringLoop_succ]
    split
    · exact ⟨[], by simp⟩
    · obtain ⟨bs, hb⟩ := ih (a + 1) ((s.memRead a).2.conWrites (bytes (s.memRead a).1))
      exact ⟨bytes (s.memRead a).1 ++ bs, by rw [hb]; simp [List.append_assoc]⟩

end

end Sys2Proof.Machine
end

