-- ==== Sys2Proof/Laws/PerInstr.lean ====
section
/-!
SUPPORT. The family `EncodedRow`, for every instruction as syntax: its encoding lies in its own row of the
opcode table (R92, R95).
-/

namespace Sys2Proof.Laws.EncodedRow

/-- The encoding of a well-formed instruction has the fixed bits of the instruction's row. -/
def Statement (i : Instr) : Prop := i.wf = true → encode i &&& rowMask i = rowMatch i

theorem br (nzp : BitVec 3) (off : BitVec 9) : Statement (.br nzp off) := fun _ =>
  (or_and_of_and_eq_zero (fieldAt_and_eq_zero _ _ 0xF000 (by decide))).trans <|
  (or_and_of_and_eq_zero (fieldAt_and_eq_zero _ _ 0xF000 (by decide))).trans rfl

theorem addReg (dr sr1 sr2 : Reg) : Statement (.addReg dr sr1 sr2) := fun _ =>
  (or_and_of_and_eq_zero (regAt_and_eq_zero _ _ 0xF020 (by decide))).trans <|
  (or_and_of_and_eq_zero (regAt_and_eq_zero _ _ 0xF020 (by decide))).trans <|
  (or_and_of_and_eq_zero (regAt_and_eq_zero _ _ 0xF020 (by decide))).trans rfl

theorem addImm (dr sr1 : Reg) (imm : BitVec 5) : Statement (.addImm dr sr1 imm) := fun _ =>
  (or_and_of_and_eq_zero (fieldAt_and_eq_zero _ _ 0xF020 (by decide))).trans <|
  (or_and_of_and_eq_zero (regAt_and_eq_zero _ _ 0xF020 (by decide))).trans <|
  (or_and_of_and_eq_zero (regAt_and_eq_zero _ _ 0xF020 (by decide))).trans rfl

theorem ld (dr : Reg) (off : BitVec 9) : Statement (.ld dr off) := fun _ =>
  (or_and_of_and_eq_zero (fieldAt_and_eq_zero _ _ 0xF000 (by decide))).trans <|
  (or_and_of_and_eq_zero (regAt_and_eq_zero _ _ 0xF000 (by decide))).trans rfl

theorem st (sr : Reg) (off : BitVec 9) : Statement (.st sr off) := fun _ =>
  (or_and_of_and_eq_zero (fieldAt_and_eq_zero _ _ 0xF000 (by decide))).trans <|
  (or_and_of_and_eq_zero (regAt_and_eq_zero _ _ 0xF000 (by decide))).trans rfl

theorem jsr (off : BitVec 11) : Statement (.jsr off) := fun _ =>
  (or_and_of_and_eq_zero (fieldAt_and_eq_zero _ _ 0xF800 (by decide))).trans rfl

theorem jsrr (base : Reg) : Statement (.jsrr base) := fun _ =>
  (or_and_of_and_eq_zero (regAt_and_eq_zero _ _ 0xF800 (by decide))).trans rfl

theorem andReg (dr sr1 sr2 : Reg) : Statement (.andReg dr sr1 sr2) := fun _ =>
  (or_and_of_and_eq_zero (regAt_and_eq_zero _ _ 0xF020 (by decide))).trans <|
  (or_and_of_and_eq_zero (regAt_and_eq_zero _ _ 0xF020 (by decide))).trans <|
  (or_and_of_and_eq_zero (regAt_and_eq_zero _ _ 0xF020 (by decide))).trans rfl

theorem andImm (dr sr1 : Reg) (imm : BitVec 5) : Statement (.andImm dr sr1 imm) := fun _ =>
  (or_and_of_and_eq_zero (fieldAt_and_eq_zero _ _ 0xF020 (by decide))).trans <|
  (or_and_of_and_eq_zero (regAt_and_eq_zero _ _ 0xF020 (by decide))).trans <|
  (or_and_of_and_eq_zero (regAt_and_eq_zero _ _ 0xF020 (by decide))).trans rfl

theorem ldr (dr base : Reg) (off : BitVec 6) : Statement (.ldr dr base off) := fun _ =>
  (or_and_of_and_eq_zero (fieldAt_and_eq_zero _ _ 0xF000 (by decide))).trans <|
  (or_and_of_and_eq_zero (regAt_and_eq_zero _ _ 0xF000 (by decide))).trans <|
  (or_and_of_and_eq_zero (regAt_and_eq_zero _ _ 0xF000 (by decide))).trans rfl

theorem str (sr base : Reg) (off : BitVec 6) : Statement (.str sr base off) := fun _ =>
  (or_and_of_and_eq_zero (fieldAt_and_eq_zero _ _ 0xF000 (by decide))).trans <|
  (or_and_of_and_eq_zero (regAt_and_eq_zero _ _ 0xF000 (by decide))).trans <|
  (or_and_of_and_eq_zero (regAt_and_eq_zero _ _ 0xF000 (by decide))).trans rfl

theorem rti (low : BitVec 12) : Statement (.rti low) := fun _ =>
  (or_and_of_and_eq_zero (fieldAt_and_eq_zero _ _ 0xF000 (by decide))).trans rfl

theorem not (dr sr : Reg) : Statement (.not dr sr) := fun _ =>
  (or_and_of_and_eq_zero (regAt_and_eq_zero _ _ 0xF000 (by decide))).trans <|
  (or_and_of_and_eq_zero (regAt_and_eq_zero _ _ 0xF000 (by decide))).trans rfl

theorem ldi (dr : Reg) (off : BitVec 9) : Statement (.ldi dr off) := fun _ =>
  (or_and_of_and_eq_zero (fieldAt_and_eq_zero _ _ 0xF000 (by decide))).trans <|
  (or_and_of_and_eq_zero (regAt_and_eq_zero _ _ 0xF000 (by decide))).trans rfl

theorem sti (sr : Reg) (off : BitVec 9) : Statement (.sti sr off) := fun _ =>
  (or_and_of_and_eq_zero (fieldAt_and_eq_zero _ _ 0xF000 (by decide))).trans <|
  (or_and_of_and_eq_zero (regAt_and_eq_zero _ _ 0xF000 (by decide))).trans rfl

theorem jmp (base : Reg) : Statement (.jmp base) := fun _ =>
  (or_and_of_and_eq_zero (regAt_and_eq_zero _ _ 0xF000 (by decide))).trans rfl

theorem res (low : BitVec 12) : Statement (.res low) := fun _ =>
  (or_and_of_and_eq_zero (fieldAt_and_eq_zero _ _ 0xF000 (by decide))).trans rfl

theorem lea (dr : Reg) (off : BitVec 9) : Statement (.lea dr off) := fun _ =>
  (or_and_of_and_eq_zero (fieldAt_and_eq_zero _ _ 0xF000 (by decide))).trans <|
  (or_and_of_and_eq_zero (regAt_and_eq_zero _ _ 0xF000 (by decide))).trans rfl

theorem trapGetc : Statement .trapGetc := fun _ => rfl

theorem trapOut : Statement .trapOut := fun _ => rfl

theorem trapPuts : Statement .trapPuts := fun _ => rfl

theorem trapIn : Statement .trapIn := fun _ => rfl

theorem trapPutsp : Statement .trapPutsp := fun _ => rfl

theorem trapHalt : Statement .trapHalt := fun _ => rfl

theorem trapUnknown (high : BitVec 4) (vect : BitVec 8) : Statement (.trapUnknown high vect) := fun _ =>
  (or_and_of_and_eq_zero (fieldAt_and_eq_zero _ _ 0xF000 (by decide))).trans <|
  (or_and_of_and_eq_zero (fieldAt_and_eq_zero _ _ 0xF000 (by decide))).trans rfl

end Sys2Proof.Laws.EncodedRow
end

