-- ==== Sys2Proof/Tests/Slice0.lean ====
section
/-!
SUPPORT. Tests: the decoding of written-out Words, one step of each instruction on the vectors of
`95_test_vectors.md` (named by their id there), and for every statement with hypotheses a state and operands
that meet them.
-/

namespace Sys2Proof.Tests

open Sys2Proof Sys2Proof.Machine

/-! ## Well-formedness and decoding -/

/-- The one check of `Instr.wf` refuses an unknown vector that names a service (R169). -/
theorem test_wf_refuses_service_vector : (Instr.trapUnknown 0 0x22).wf = false := by decide

/-- BR, JMP, JSR, JSRR (formats R84, R90; ignored bits set). -/
theorem test_decode_control :
    decode 0b0000_101_000010000 = .br 0b101 16 ∧ decode 0b1100_111_010_111111 = .jmp 2 ∧
    decode 0b0100_1_01111111111 = .jsr 1023 ∧ decode 0b0100_0_11_010_111111 = .jsrr 2 := by decide

/-- ADD, AND in both forms and NOT (formats R85 to R87; ignored bits set). -/
theorem test_decode_alu :
    decode 0b0001_010_000_0_11_001 = .addReg 2 0 1 ∧ decode 0b0001_001_001_1_11111 = .addImm 1 1 31 ∧
    decode 0b0101_011_001_0_11_000 = .andReg 3 1 0 ∧ decode 0b0101_001_010_1_10000 = .andImm 1 2 16 ∧
    decode 0b1001_001_010_010101 = .not 1 2 := by decide

/-- LD, LDI, LEA, LDR, ST, STI, STR (formats R88, R89). -/
theorem test_decode_memory :
    decode 0b0010_001_000000100 = .ld 1 4 ∧ decode 0b1010_010_011111111 = .ldi 2 255 ∧
    decode 0b1110_010_100000000 = .lea 2 256 ∧ decode 0b0110_010_001_111111 = .ldr 2 1 63 ∧
    decode 0b0011_011_000000101 = .st 3 5 ∧ decode 0b1011_001_000000010 = .sti 1 2 ∧
    decode 0b0111_000_110_000001 = .str 0 6 1 := by decide

/-- The TRAP rows (format R91; bits 11:8 set to show they are ignored by the services). -/
theorem test_decode_trap :
    decode 0b1111_1111_00100000 = .trapGetc ∧ decode 0b1111_0001_00100001 = .trapOut ∧
    decode 0b1111_0000_00100010 = .trapPuts ∧ decode 0b1111_0010_00100011 = .trapIn ∧
    decode 0b1111_0100_00100100 = .trapPutsp ∧ decode 0b1111_1111_00100101 = .trapHalt ∧
    decode 0b1111_0000_00011111 = .trapUnknown 0 0x1F ∧
    decode 0b1111_1111_11111111 = .trapUnknown 15 0xFF := by decide

/-- RTI and the reserved opcode (format Z, R91). -/
theorem test_decode_unimplemented :
    decode 0b1000_101010111100 = .rti 0xABC ∧ decode 0b1101_101010111100 = .res 0xABC := by decide

/-- The Words of R101, R99 and the listings of `96_test_programs.md`. -/
theorem test_encode_listings :
    encode (.andImm 0 0 0) = 0x5020 ∧ encode (.addImm 0 0 5) = 0x1025 ∧ encode .trapHalt = 0xF025 ∧
    encode (.lea 6 8) = 0xEC08 ∧ encode (.not 0 0) = 0x903F ∧ encode (.jmp 7) = 0xC1C0 ∧
    encode (.str 0 6 1) = 0x7181 ∧ encode (.br 0b001 0x1FD) = 0x03FD := by decide

/-- The host's two entry points. -/
theorem test_decodeTableWord : decodeTableWord 16 0xF025 = some .trapHalt := by decide

/-! ## One step, on the vectors of the spec -/

/-- The reset state with an instruction Word at an address and `pc` there. -/
def atWord (a w : Word) : State := { (State.reset.memWrite a w) with pc := a }

/-- The state after one step. -/
def after (s : State) : Option State :=
  match step s with
  | .next t => some t
  | .fault _ => none
  | .refused _ => none

theorem test_withFetchWord :
    (after (State.reset.withFetchWord 16 0x1025)).map (fun t => (t.reg 0, t.pc, t.cond)) =
      some (0x0005, 0x3001, .pos) := by decide

/-- BR1: taken, backward. -/
theorem test_BR1 : (after { (atWord 0x3004 0x03FD) with cond := .pos }).map (·.pc) = some 0x3002 := by
  decide

/-- BR7: `pc` wraps at the fetch. -/
theorem test_BR7 : (after { (atWord 0xFFFF 0x0A10) with cond := .pos }).map (·.pc) = some 0x0010 := by
  decide

/-- ADD2: signed overflow is silent. -/
theorem test_ADD2 : (after (((atWord 0x3000 0x1001).setReg 0 0x7FFF).setReg 1 1)).map
    (fun t => (t.reg 0, t.cond)) = some (0x8000, .neg) := by decide

/-- ADD8: imm5 = 0x10 is -16. -/
theorem test_ADD8 : (after ((atWord 0x3000 0x1270).setReg 1 0x0008)).map
    (fun t => (t.reg 1, t.cond)) = some (0xFFF8, .neg) := by decide

/-- AND7: bits 4:3 ignored. -/
theorem test_AND7 : (after (((atWord 0x3000 0x5658).setReg 0 0x0FF0).setReg 1 0xF0F0)).map
    (fun t => (t.reg 3, t.cond)) = some (0x00F0, .pos) := by decide

/-- AND3: imm5 = 0x10 is the mask 0xFFF0. -/
theorem test_AND3 : (after ((atWord 0x3000 0x52B0).setReg 2 0x1234)).map
    (fun t => (t.reg 1, t.cond)) = some (0x1230, .pos) := by decide

/-- NOT4. -/
theorem test_NOT4 : (after ((atWord 0x3000 0x92BF).setReg 2 0x8000)).map
    (fun t => (t.reg 1, t.cond)) = some (0x7FFF, .pos) := by decide

/-- LD3: `pc` wraps, offset 0 reads 0x0000. -/
theorem test_LD3 : (after ((atWord 0xFFFF 0x2600).memWrite 0x0000 0x8000)).map
    (fun t => (t.reg 3, t.cond, t.pc)) = some (0x8000, .neg, 0x0000) := by decide

/-- LD6: a status read with no input overwrites the stored Word before it is returned. -/
theorem test_LD6 : (after ((atWord 0xFD00 0x20FF).memWrite 0xFE00 0x7777)).map
    (fun t => (t.reg 0, t.mem.read 0xFE00, t.cond)) = some (0x0000, 0x0000, .zro) := by decide

/-- LDI6: the pointer cell is 0xFE00; the first read latches, the second reads 0x8000. -/
theorem test_LDI6 : (after (((atWord 0xFD00 0xA4FF).memWrite 0x8000 0x0BAD).arrive [0x41, 0x42])).map
    (fun t => (t.reg 2, t.mem.read 0xFE00, t.mem.read 0xFE02, t.conIn)) =
      some (0x0BAD, 0x8000, 0x0041, [0x42]) := by decide

/-- LDR3: DR = BaseR. -/
theorem test_LDR3 : (after (((atWord 0x3000 0x6240).memWrite 0x4000 0x5000).setReg 1 0x4000)).map
    (·.reg 1) = some 0x5000 := by decide

/-- LDR5: offset -32 wraps below zero. -/
theorem test_LDR5 : (after (((atWord 0x3000 0x6060).memWrite 0xFFF0 0x0009).setReg 1 0x0010)).map
    (·.reg 0) = some 0x0009 := by decide

/-- LEA7: 0xFE00 is computed, not read. -/
theorem test_LEA7 : (after ((atWord 0xFD00 0xE4FF).arrive [0x41])).map
    (fun t => (t.reg 2, t.cond, t.conIn)) = some (0xFE00, .neg, [0x41]) := by decide

/-- ST3: offset -1 overwrites the instruction itself. -/
theorem test_ST3 : (after ((atWord 0x3000 0x31FF).setReg 0 0x1111)).map
    (fun t => (t.mem.read 0x3000, t.pc, t.cond)) = some (0x1111, 0x3001, .zro) := by decide

/-- STI3: the pointer cell is 0xFE00 with a byte waiting. -/
theorem test_STI3 : (after (((atWord 0xFD00 0xB2FF).setReg 1 0x5555).arrive [0x51])).map
    (fun t => (t.mem.read 0x8000, t.mem.read 0xFE00, t.mem.read 0xFE02, t.conIn)) =
      some (0x5555, 0x8000, 0x0051, []) := by decide

/-- STR2: offset -2 wraps. -/
theorem test_STR2 : (after (((atWord 0x3000 0x757E).setReg 2 0x1111).setReg 5 0x0001)).map
    (fun t => t.mem.read 0xFFFF) = some 0x1111 := by decide

/-- JMP3: ignored bits set. -/
theorem test_JMP3 : (after ((atWord 0x3000 0xCEBF).setReg 2 0x1234)).map (·.pc) = some 0x1234 := by
  decide

/-- JSR4: largest backward offset. -/
theorem test_JSR4 : (after (atWord 0x3000 0x4C00)).map (fun t => (t.pc, t.reg 7)) =
    some (0x2C01, 0x3001) := by decide

/-- JSRR2: BaseR = R7 falls through. -/
theorem test_JSRR2 : (after ((atWord 0x3000 0x41C0).setReg 7 0x5000)).map (fun t => (t.pc, t.reg 7)) =
    some (0x3001, 0x3001) := by decide

/-- T3: GETC of byte 0xFF is zero-extended. -/
theorem test_T3 : (after ((atWord 0x3000 0xF020).arrive [0xFF])).map
    (fun t => (t.reg 0, t.cond, t.conIn)) = some (0x00FF, .pos, []) := by decide

/-- The blocking vector: GETC with no input leaves the state as it was. -/
theorem test_getc_waits : after (atWord 0x3000 0xF020) = some (atWord 0x3000 0xF020) := by decide

/-- T6: OUT, the low byte only. -/
theorem test_T6 : (after ((atWord 0x3000 0xF021).setReg 0 0x1241)).map (·.conOut) =
    some [.write 0x41, .flush] := by decide

/-- T12: PUTS across the keyboard cells. -/
theorem test_T12 : (after ((((atWord 0x3000 0xF022).setReg 0 0xFDFF).memWrite 0xFDFF 0x0041).memWrite
    0xFE01 0x0043 |>.arrive [0x78])).map (fun t => (t.conOut, t.conIn, t.mem.read 0xFE02)) =
      some ([.write 0x41, .write 0x00, .write 0x43, .write 0x78, .flush], [], 0x0078) := by
  decide +kernel

/-- T11: PUTS, the address wraps. -/
theorem test_T11 : (after ((((atWord 0x3000 0xF022).setReg 0 0xFFFF).memWrite 0x0000 0x0042).memWrite
    0xFFFF 0x0041)).map (·.conOut) = some [.write 0x41, .write 0x42, .flush] := by decide +kernel

/-- T14: IN with the default prompt. -/
theorem test_T14 : (after ((atWord 0x3000 0xF023).arrive [0x7A])).map
    (fun t => (t.conOut, t.reg 0, t.cond)) =
      some (Config.defaultInPrompt.map .write ++ [.write 0x7A], 0x007A, .pos) := by decide

/-- T17: PUTSP, a zero low byte is written, a zero high byte is skipped. -/
theorem test_T17 : (after (((((atWord 0x3000 0xF024).setReg 0 0x4000).memWrite 0x4000 0x4100).memWrite
    0x4001 0x0041).memWrite 0x4002 0x4242)).map (·.conOut) =
      some [.write 0x00, .write 0x41, .write 0x41, .write 0x42, .write 0x42, .flush] := by
  decide +kernel

/-- T19: HALT with the default notice. -/
theorem test_T19 : (after (atWord 0x3002 0xF025)).map (fun t => (t.run, t.pc, t.conOut)) =
    some (.halted, 0x3003,
      [.write 0x48, .write 0x41, .write 0x4C, .write 0x54, .write 0x0A, .flush]) := by decide

/-- T23: unknown vector 0xFF changes only `pc` and `diag`. -/
theorem test_T23 : (after ((atWord 0x3000 0xFFFF).setReg 7 0x4321)).map
    (fun t => (t.pc, t.diag, t.reg 7, t.cond)) = some (0x3001, [0xFFFF], 0x4321, .zro) := by decide

/-- UN2 and UN4: RTI and the reserved opcode. -/
theorem test_UN2_UN4 :
    (after (atWord 0x3000 0x8FFF)).map (fun t => (t.pc, t.diag)) = some (0x3001, [0x8FFF]) ∧
    (after (atWord 0x3000 0xDABC)).map (fun t => (t.pc, t.diag)) = some (0x3001, [0xDABC]) := by
  decide

/-- F2 and F3: a fetch from 0xFE00 polls. -/
theorem test_F2_F3 :
    (after ({ State.reset with pc := 0xFE00 }.arrive [0x41])).map
      (fun t => (t.pc, t.diag, t.mem.read 0xFE02, t.conIn)) = some (0xFE01, [0x8000], 0x0041, []) ∧
    (after (atWord 0xFE00 0xF025)).map (fun t => (t.pc, t.run, t.mem.read 0xFE00)) =
      some (0xFE01, .running, 0x0000) := by decide

/-- The loader on the image of section 1.10, under both policies. -/
theorem test_image_overflow :
    loadImage .truncate [] [0xFF, 0xFE, 0x11, 0x11, 0x22, 0x22, 0x33, 0x33, 0x44, 0x44] =
      some [(0xFFFE, 0x1111), (0xFFFF, 0x2222)] ∧
    loadImage .wrap [] [0xFF, 0xFE, 0x11, 0x11, 0x22, 0x22, 0x33, 0x33, 0x44, 0x44] =
      some [(0, 0x3333), (1, 0x4444), (0xFFFE, 0x1111), (0xFFFF, 0x2222)] := by decide

/-- The first rows of section 1.1. -/
theorem test_sign_extend : signExtend 0xF 5 = 0x000F ∧ signExtend 0x10 5 = 0xFFF0 ∧
    signExtend 0x1FD 9 = 0xFFFD ∧ signExtend 0x1 1 = 0xFFFF ∧ signExtend 0x8000 16 = 0x8000 := by decide

/-! ## Witnesses: every statement's hypotheses can be met -/

/-- A state at an address with a Word there is in canonical form. -/
theorem atWord_inv (a w : Word) : (atWord a w).Inv := State.memWrite_wf Memory.nil_wf a w

theorem witness_DecodeOfEncodeIsTheInstruction :
    (Instr.trapUnknown 0xF 0x26).wf = true ∧ (Instr.trapUnknown 0 0x1F).wf = true := by decide

theorem witness_IgnoredBitsChangeNothing :
    (0x1401 : Word) &&& readMask (decode 0x1401) = 0x1419 &&& readMask (decode 0x1401) := by decide

theorem witness_EveryWordSelectsExactlyItsRow :
    (∀ h v, Instr.trapHalt ≠ .trapUnknown h v) ∧
      (0xFF25 : Word) &&& rowMask .trapHalt = rowMatch .trapHalt := by
  exact ⟨by simp, by decide⟩

theorem witness_SignExtendIsTheSignedValue : ∃ n m : Nat, 1 ≤ n ∧ n ≤ 16 ∧ m = 16 ∧ 1 ≤ m ∧ m ≤ 16 :=
  ⟨1, 16, by decide⟩

theorem witness_StepRunsTheDecodedInstruction : State.reset.run = .running := rfl

theorem witness_StepRunsTheCellAtPc :
    (atWord 0x3000 0x1025).run = .running ∧ (atWord 0x3000 0x1025).pc ≠ 0xFE00 ∧
      (Instr.addImm 0 0 5).wf = true ∧
      decode ((atWord 0x3000 0x1025).mem.read (atWord 0x3000 0x1025).pc.toNat) = .addImm 0 0 5 := by
  decide

theorem witness_FetchFromKeyboardStatusPolls :
    ∃ s t : State, (s.Inv ∧ s.run = .running ∧ s.pc = 0xFE00 ∧ s.conIn = 0x41 :: []) ∧
      (t.Inv ∧ t.run = .running ∧ t.pc = 0xFE00 ∧ t.conIn = []) :=
  ⟨(atWord 0xFE00 0).arrive [0x41], atWord 0xFE00 0, ⟨atWord_inv 0xFE00 0, rfl, rfl, rfl⟩,
    atWord_inv _ _, rfl, rfl, rfl⟩

/-- A taken branch, for the statements about a RUNNING core that takes a step and does not wait. -/
theorem witness_ProgramCounterFollowsTheTable :
    ∃ s t : State, s.Inv ∧ s.run = .running ∧ ¬ s.Waits ∧ step s = .next t ∧ t.pc = 0x3006 :=
  ⟨{ (atWord 0x3000 0x0E05) with cond := .neg }, _, atWord_inv 0x3000 0x0E05, rfl, by decide, rfl,
    by decide⟩

theorem witness_ImageWordsLandAtTheOrigin :
    Memory.wf [] ∧ ([0x11, 0x22] : List Byte)[2 * 0]? = some 0x11 ∧
      ([0x11, 0x22] : List Byte)[2 * 0 + 1]? = some 0x22 ∧
      (0xFF : Byte).toNat * 256 + (0xFF : Byte).toNat + 0 ≤ 0xFFFF ∧
      (0 : Nat) < (0xFF : Byte).toNat * 256 + (0xFF : Byte).toNat ∧
      (0xFF : Byte).toNat * 256 + (0xFF : Byte).toNat + ([0x11, 0x22] : List Byte).length / 2 ≤ 0x10000 := by
  decide

theorem witness_OversizedImageWraps :
    Memory.wf [] ∧ ([1, 2, 3, 4] : List Byte).length / 2 ≤ 65536 ∧
      ([1, 2, 3, 4] : List Byte)[2 * 1]? = some 3 ∧ ([1, 2, 3, 4] : List Byte)[2 * 1 + 1]? = some 4 := by
  decide

theorem witness_BootGivesALaunchState :
    ∃ s, State.boot .truncate [[0x30, 0x00, 0xF0, 0x25]] [0x61] = some s ∧
      s.mem.read 0x3000 = 0xF025 :=
  ⟨_, rfl, by decide⟩

theorem witness_MemReadPollsTheKeyboard :
    ∃ s t : State, (s.Inv ∧ s.conIn = [] ∧ (0xFE02 : Word) ≠ 0xFE00) ∧
      (t.Inv ∧ t.conIn = 0x80 :: []) :=
  ⟨State.reset, State.reset.arrive [0x80], ⟨Memory.nil_wf, rfl, by decide⟩, Memory.nil_wf, rfl⟩

theorem witness_SecondStatusReadLosesTheFirstByte :
    (State.reset.arrive [0x61, 0x62]).Inv ∧ (State.reset.arrive [0x61, 0x62]).conIn = 0x61 :: 0x62 :: [] :=
  ⟨Memory.nil_wf, rfl⟩

theorem witness_MemWriteStoresOneCell : State.reset.Inv := Memory.nil_wf

theorem witness_WrittenWordIsReadBackExceptAtTheStatusCell :
    State.reset.Inv ∧ (0xFE02 : Word) ≠ 0xFE00 ∧ (0xFFFF : Word) ≠ 0xFE00 :=
  ⟨Memory.nil_wf, by decide⟩

/-- ST2, and the same store through a pointer and through a base register. -/
theorem witness_StoredWordIsFetchedNext :
    (∃ s t : State, s.Inv ∧ s.run = .running ∧ decode s.fetch.1 = .st 0 0 ∧
      storeAddress (.st 0 0) s.fetch.2 = some (s.pc + 1) ∧ s.pc + 1 ≠ 0xFE00 ∧ step s = .next t) ∧
    (∃ s t : State, s.Inv ∧ s.run = .running ∧ decode s.fetch.1 = .sti 0 1 ∧
      storeAddress (.sti 0 1) s.fetch.2 = some (s.pc + 1) ∧ s.pc + 1 ≠ 0xFE00 ∧ step s = .next t) ∧
    (∃ s t : State, s.Inv ∧ s.run = .running ∧ decode s.fetch.1 = .str 0 1 1 ∧
      storeAddress (.str 0 1 1) s.fetch.2 = some (s.pc + 1) ∧ s.pc + 1 ≠ 0xFE00 ∧
      step s = .next t) :=
  ⟨⟨atWord 0x3000 0x3000, _, atWord_inv _ _, rfl, by decide, by decide, by decide, rfl⟩,
    ⟨(atWord 0x3000 0xB001).memWrite 0x3002 0x3001, _, State.memWrite_wf (atWord_inv _ _) _ _, rfl,
      by decide, by decide, by decide, rfl⟩,
    ⟨(atWord 0x3000 0x7041).setReg 1 0x3000, _, atWord_inv 0x3000 0x7041, rfl, by decide, by decide,
      by decide, rfl⟩⟩

/-- Loads: an address that is plain and one that polls, for LD, LDR and LDI. -/
theorem witness_loads :
    State.reset.Inv ∧ State.reset.pcRel9 4 ≠ 0xFE00 ∧ State.reset.baseOff6 1 0x3F ≠ 0xFE00 ∧
      State.reset.mem.read (State.reset.pcRel9 4).toNat ≠ 0xFE00 ∧
      ({ State.reset with pc := 0xFD01 }.pcRel9 255) = 0xFE00 := by decide

theorem witness_LdiPollsAtMostOnce :
    ∃ s t : State, s.Inv ∧ exec (.ldi 0 255) s = .next t ∧ t.conIn = s.conIn.tail ∧ s.conIn ≠ [] :=
  ⟨{ State.reset with pc := 0xFD01, conIn := [0x41, 0x42] }, _, Memory.nil_wf, rfl, by decide, by decide⟩

theorem witness_stores :
    (State.reset.setReg 1 0xFE00).Inv ∧ (State.reset.setReg 1 0xFE00).baseOff6 1 0 = 0xFE00 ∧
      State.reset.pcRel9 0x1FF ≠ 0xFE00 := by decide

/-- The mask n z p = 0 0 1 with POSITIVE and with ZERO; the masks 000 and 111 are values of their own. -/
theorem witness_BranchMovesPcWhenTheConditionHolds :
    BrCondition 0b001 .pos ∧ ¬ BrCondition 0b001 .zro ∧ ¬ BrCondition 0b000 .neg ∧
      BrCondition 0b111 .neg := by
  unfold BrCondition
  decide

theorem witness_JsrrLinksBeforeItReadsTheBase : ∃ b c : Reg, b = 7 ∧ c ≠ 7 := ⟨7, 0, rfl, by decide⟩

theorem witness_GetcReadsOneByte : (State.reset.arrive [0xFF, 0x00]).conIn = 0xFF :: [0x00] := rfl

theorem witness_InPromptsReadsAndEchoes : (State.reset.arrive [0x00]).conIn = 0x00 :: [] := rfl

theorem witness_strings : (State.reset.arrive [0x78]).Inv ∧
    65536 * ((State.reset.arrive [0x78]).conIn.length + 1) ≤ 131072 := by decide

/-- The string `Hi` and a line feed at 0x3003 (R164), and the empty string. -/
theorem witness_PutsWritesAPlainString :
    ∃ s : State, (∀ (k : Nat) (w : Word), ([0x48, 0x69, 0x0A] : List Word)[k]? = some w → w ≠ 0 ∧
        s.reg 0 + BitVec.ofNat 16 k ≠ 0xFE00 ∧ s.mem.read (s.reg 0 + BitVec.ofNat 16 k).toNat = w) ∧
      s.reg 0 + BitVec.ofNat 16 3 ≠ 0xFE00 ∧ s.mem.read (s.reg 0 + BitVec.ofNat 16 3).toNat = 0 := by
  refine ⟨(((State.reset.setReg 0 0x3003).memWrite 0x3003 0x48).memWrite 0x3004 0x69).memWrite 0x3005
    0x0A, fun k w h => ?_, by decide, by decide⟩
  match k with
  | 0 => cases h; decide
  | 1 => cases h; decide
  | 2 => cases h; decide
  | _ + 3 => simp at h

theorem witness_DiagnosticRecordsTheFetchedWord :
    (∃ t, step (atWord 0x3000 0x8FFF) = .next t ∧ t.diag ≠ (atWord 0x3000 0x8FFF).diag) ∧
      decode (atWord 0x3000 0x8FFF).fetch.1 = .rti 0xFFF ∧
      decode (atWord 0x3000 0xDABC).fetch.1 = .res 0xABC ∧
      decode (atWord 0x3000 0xFF26).fetch.1 = .trapUnknown 0xF 0x26 :=
  ⟨⟨_, rfl, by decide⟩, by decide⟩

/-- GETC and IN with no input: both wait. -/
theorem witness_WaitingCoreStaysAsItIs :
    (atWord 0x3000 0xF020).Inv ∧ (atWord 0x3000 0xF020).Waits ∧ (atWord 0x3000 0xF023).Inv ∧
      (atWord 0x3000 0xF023).Waits := by decide

theorem witness_OnlyTrapHaltHalts :
    (∃ t, (atWord 0x3000 0xF025).run = .running ∧ step (atWord 0x3000 0xF025) = .next t ∧
      t.run = .halted) ∧ ({ State.reset with run := .halted } : State).run = .halted :=
  ⟨⟨_, rfl, rfl, by decide⟩, rfl⟩

theorem witness_StepKeepsMemoryCanonical :
    ∃ t, (atWord 0x3000 0x3605).Inv ∧ step ((atWord 0x3000 0x3605).setReg 3 0xBEEF) = .next t ∧
      t.mem.read 0x3006 = 0xBEEF :=
  ⟨_, atWord_inv _ _, rfl, by decide⟩

theorem witness_CondIsWrittenOnlyByFlagSetters :
    ∃ t, ¬ (atWord 0x3000 0x103F).Waits ∧ step (atWord 0x3000 0x103F) = .next t ∧ t.cond = .neg ∧
      destination (decode (atWord 0x3000 0x103F).fetch.1) = some 0 :=
  ⟨_, by decide, rfl, by decide, by decide⟩

theorem witness_OnlyBranchReadsCond :
    (∀ nzp off, Instr.addImm 0 0 1 ≠ .br nzp off) ∧ ∃ t, exec (.addImm 0 0 1) State.reset = .next t :=
  ⟨by simp, _, rfl⟩

theorem witness_RegistersChangeOnlyAsDestinations :
    ∃ t, step (atWord 0x3002 0x4802) = .next t ∧ t.reg 7 ≠ (atWord 0x3002 0x4802).reg 7 :=
  ⟨_, rfl, by decide⟩

theorem witness_MemoryChangesOnlyByStoreOrLatch :
    ∃ s t : State, s.Inv ∧ step s = .next t ∧ t.mem.read 0x4000 ≠ s.mem.read 0x4000 :=
  ⟨((atWord 0x3000 0xB202).memWrite 0x3003 0x4000).setReg 1 0x00AA, _,
    State.memWrite_wf (atWord_inv _ _) _ _, rfl, by decide⟩

theorem witness_OutputComesOnlyFromTheTrapServices :
    ∃ t, step (atWord 0x3000 0xF021) = .next t ∧ t.conOut ≠ (atWord 0x3000 0xF021).conOut :=
  ⟨_, rfl, by decide⟩

/-- A run of three steps in which a byte arrives, is read, and is written out. -/
theorem witness_TracesAreNeverRead :
    ∃ t, runSchedule [[], [0x6F], []] ((atWord 0x3000 0xF020).memWrite 0x3001 0xF021) = .next t ∧
      t.conOut = [.write 0x6F, .flush] :=
  ⟨_, rfl, by decide⟩

end Sys2Proof.Tests
end

section
/-!
PROOF. `sign_extend` of a Word's low bits is their signed value, at every width from 1 to 16 (R11).
-/

namespace Sys2Proof.Machine

/-- Masking a Word with `2^n - 1` leaves its low `n` bits, zero-extended. -/
theorem and_lowMask_eq_setWidth (v : Word) {n : Nat} (hn : n ≤ 16) :
    v &&& BitVec.ofNat 16 (2 ^ n - 1) = (v.setWidth n).setWidth 16 := by
  have hmask : 2 ^ n - 1 < 2 ^ 16 :=
    (Nat.sub_lt (Nat.two_pow_pos n) Nat.one_pos).trans_le (Nat.pow_le_pow_right Nat.two_pos hn)
  have hfield : v.toNat % 2 ^ n < 2 ^ 16 := (Nat.mod_le _ _).trans_lt v.isLt
  apply BitVec.eq_of_toNat_eq
  rw [BitVec.toNat_and, BitVec.toNat_ofNat, Nat.mod_eq_of_lt hmask, Nat.and_two_pow_sub_one_eq_mod,
    BitVec.toNat_setWidth, BitVec.toNat_setWidth, Nat.mod_eq_of_lt hfield]

/-- Settles O6: the masked Word is its low field zero-extended, so R11's formula is the library's
sign extension of that field, which keeps the signed value. -/
theorem signExtendIsTheSignedValue : Obligations.SignExtendIsTheSignedValue := by
  intro v n hpos hn
  calc (signExtend (v &&& BitVec.ofNat 16 (2 ^ n - 1)) n).toInt
      = (sext16 (v.setWidth n)).toInt := by rw [and_lowMask_eq_setWidth v hn, sext16]
    _ = ((v.setWidth n).signExtend 16).toInt := by rw [sext16_eq_signExtend _ hpos hn]
    _ = (v.setWidth n).toInt := BitVec.toInt_signExtend_of_le hn

end Sys2Proof.Machine
end

section
/-!
PROOF. What an instruction can do to the state, said once (`exec_effect`): reads of memory and console
traffic (`State.KeepsCore`), then one of the ways in which an instruction ends (`Effect`).
-/

namespace Sys2Proof.Machine

/-! ## Reads, stores and console traffic -/

/-- `u` is `s` after reads and stores of memory and traffic on the console: the core itself is as it was
(R20 to R30), memory stays canonical, input goes from the front, output comes at the end (R33). -/
structure State.KeepsCore (s u : State) : Prop where
  regs : u.regs = s.regs
  pc : u.pc = s.pc
  cond : u.cond = s.cond
  run : u.run = s.run
  diag : u.diag = s.diag
  par : u.par = s.par
  wf : s.mem.wf → u.mem.wf
  conIn : u.conIn <:+ s.conIn
  conOut : s.conOut <+: u.conOut

namespace State.KeepsCore

variable {s u v : State}

theorem refl (s : State) : s.KeepsCore s :=
  ⟨rfl, rfl, rfl, rfl, rfl, rfl, id, List.suffix_rfl, List.prefix_rfl⟩

theorem trans (h : s.KeepsCore u) (k : u.KeepsCore v) : s.KeepsCore v where
  regs := k.regs.trans h.regs
  pc := k.pc.trans h.pc
  cond := k.cond.trans h.cond
  run := k.run.trans h.run
  diag := k.diag.trans h.diag
  par := k.par.trans h.par
  wf := k.wf ∘ h.wf
  conIn := k.conIn.trans h.conIn
  conOut := h.conOut.trans k.conOut

theorem memRead (s : State) (a : Word) : s.KeepsCore (s.memRead a).2 where
  regs := by simp
  pc := by simp
  cond := by simp
  run := by simp
  diag := by simp
  par := by simp
  wf h := State.memRead_wf h a
  conIn := by
    rw [State.memRead_conIn]
    split
    · exact List.tail_suffix _
    · exact List.suffix_rfl
  conOut := by simp

theorem memWrite (s : State) (a v : Word) : s.KeepsCore (s.memWrite a v) :=
  ⟨rfl, rfl, rfl, rfl, rfl, rfl, fun h => State.memWrite_wf h a v, List.suffix_rfl, List.prefix_rfl⟩

/-- The first waiting byte is taken. -/
theorem take {c : Byte} {rest : List Byte} (h : s.conIn = c :: rest) :
    s.KeepsCore { s with conIn := rest } :=
  ⟨rfl, rfl, rfl, rfl, rfl, rfl, id, h ▸ List.suffix_cons c rest, List.prefix_rfl⟩

theorem conWrites (s : State) (bs : List Byte) : s.KeepsCore (s.conWrites bs) :=
  ⟨rfl, rfl, rfl, rfl, rfl, rfl, id, List.suffix_rfl, List.prefix_append _ _⟩

theorem conWrite (s : State) (b : Byte) : s.KeepsCore (s.conWrite b) := conWrites s [b]

theorem conFlush (s : State) : s.KeepsCore s.conFlush :=
  ⟨rfl, rfl, rfl, rfl, rfl, rfl, id, List.suffix_rfl, List.prefix_append _ _⟩

theorem stringLoop (bytes : Word → List Byte) (fuel : Nat) (a : Word) (s : State) :
    s.KeepsCore (stringLoop bytes fuel a s) := by
  induction fuel generalizing a s with
  | zero => exact refl s
  | succ n ih =>
    rw [stringLoop_succ]
    split
    · exact memRead s a
    · exact ((memRead s a).trans (conWrites _ _)).trans (ih _ _)

end State.KeepsCore

/-! ## GETC and IN -/

/-- GETC and IN with no input wait (R34). -/
theorem exec_input_of_nil {i : Instr} {s : State} (hi : i = .trapGetc ∨ i = .trapIn)
    (hc : s.conIn = []) : exec i s = .next s.notYet := by
  rcases hi with rfl | rfl
  · simp only [exec, execTrapGetc, State.conRead_of_nil hc]
  · simp only [exec, execTrapIn, State.conRead_of_nil hc]

/-- GETC with input (R162). -/
theorem exec_trapGetc_of_cons {s : State} {c : Byte} {rest : List Byte} (hc : s.conIn = c :: rest) :
    exec .trapGetc s = .next ({ s with conIn := rest }.setRegCC 0 (zext16 c)) := by
  simp only [exec, execTrapGetc, State.conRead_of_cons hc]

/-- IN with input: the prompt and the echo as well (R166). -/
theorem exec_trapIn_of_cons {s : State} {c : Byte} {rest : List Byte} (hc : s.conIn = c :: rest) :
    exec .trapIn s = .next (((({ s with conIn := rest } : State).conWrites s.par.inPrompt).conWrite
      c).setRegCC 0 (zext16 c)) := by
  simp only [exec, execTrapIn, State.conRead_of_cons hc]

/-- Both take the first byte and end with it in R0. -/
theorem exec_input_of_cons {i : Instr} {s : State} (hi : i = .trapGetc ∨ i = .trapIn)
    {c : Byte} {rest : List Byte} (hc : s.conIn = c :: rest) :
    ∃ u, exec i s = .next (u.setRegCC 0 (zext16 c)) ∧ s.KeepsCore u ∧ u.conIn = rest := by
  have htake := State.KeepsCore.take hc
  rcases hi with rfl | rfl
  · exact ⟨_, exec_trapGetc_of_cons hc, htake, rfl⟩
  · exact ⟨_, exec_trapIn_of_cons hc, (htake.trans (.conWrites _ _)).trans (.conWrite _ _), rfl⟩

/-! ## The effect of an instruction -/

/-- The ways in which instruction `i`, executed in state `s`, can end.  Each says which register the
instruction may write (`destination`) and, but for the wait, that `pc` follows the table of R23. -/
inductive Effect (s : State) (i : Instr) : State → Prop where
  /-- `setcc` of the destination, after reads and console traffic (R27). -/
  | setsFlags {r : Reg} {u : State} {v : Word} (flags : SetsFlags i)
      (dest : destination i = some r) (table : tablePc i s s.pc s.pc) (keeps : s.KeepsCore u) :
      Effect s i (u.setRegCC r v)
  /-- The stores, OUT, PUTS and PUTSP: only memory and the console change. -/
  | quiet {u : State} (dest : destination i = none) (noHalt : i ≠ .trapHalt)
      (table : tablePc i s s.pc s.pc) (keeps : s.KeepsCore u) : Effect s i u
  /-- RTI, the reserved opcode and an unknown TRAP: a diagnostic event (R182). -/
  | unimplemented {ir : Word} (dest : destination i = none) (noHalt : i ≠ .trapHalt)
      (table : tablePc i s s.pc s.pc) : Effect s i (s.unimplemented ir)
  /-- BR and JMP: only `pc` changes. -/
  | jump {p : Word} (dest : destination i = none) (noHalt : i ≠ .trapHalt)
      (table : tablePc i s s.pc p) : Effect s i (s.setPc p)
  /-- JSR and JSRR: the link, then `pc` (R154). -/
  | call {p : Word} (noFlags : ¬ SetsFlags i) (dest : destination i = some 7)
      (table : tablePc i s s.pc p) : Effect s i (s.link.setPc p)
  /-- HALT: console output, then `run` (R168). -/
  | halt {u : State} (isHalt : i = .trapHalt) (keeps : s.KeepsCore u) :
      Effect s i { u with run := .halted }
  /-- GETC or IN with no input: the wait (R34). -/
  | wait (input : i = .trapGetc ∨ i = .trapIn) (empty : s.conIn = []) : Effect s i s.notYet

/-- An offset of R93 is the signed value of its field. -/
theorem sext16_eq_ofInt {n : Nat} (f : BitVec n) (hpos : 1 ≤ n) (hn : n ≤ 16) :
    sext16 f = BitVec.ofInt 16 f.toInt := sext16_eq_signExtend f hpos hn

/-- BR as a write of `pc` whether or not it is taken (R120). -/
theorem exec_br_eq (nzp : BitVec 3) (off : BitVec 9) (s : State) : exec (.br nzp off) s =
    .next (s.setPc (if brTaken nzp s.cond then s.pcRel9 off else s.pc)) := by
  simp only [exec, execBr]
  split <;> rfl

theorem tablePc_br (nzp : BitVec 3) (off : BitVec 9) (s : State) :
    tablePc (.br nzp off) s s.pc (if brTaken nzp s.cond then s.pcRel9 off else s.pc) := by
  refine ⟨fun hc => ?_, fun hc => if_neg (mt (brTaken_iff nzp s.cond).1 hc)⟩
  rw [if_pos ((brTaken_iff nzp s.cond).2 hc), State.pcRel9,
    sext16_eq_ofInt off (by decide) (by decide)]

/-- GETC and IN wait or set the flags of R0. -/
theorem exec_input_effect {i : Instr} {s t : State} (hi : i = .trapGetc ∨ i = .trapIn)
    (h : exec i s = .next t) : Effect s i t := by
  rcases hc : s.conIn with _ | ⟨c, rest⟩
  · cases (exec_input_of_nil hi hc).symm.trans h
    exact .wait hi hc
  · obtain ⟨u, hu, keeps, -⟩ := exec_input_of_cons hi hc
    cases hu.symm.trans h
    rcases hi with rfl | rfl <;> exact .setsFlags ⟨⟨0, rfl⟩, nofun, nofun⟩ rfl rfl keeps

/-- Every instruction has one of the effects. -/
theorem exec_effect {i : Instr} {s t : State} (h : exec i s = .next t) : Effect s i t := by
  cases i with
  | addReg | addImm | andReg | andImm | not | lea =>
    cases h
    exact .setsFlags ⟨⟨_, rfl⟩, nofun, nofun⟩ rfl rfl (.refl s)
  | ld | ldr =>
    cases h
    exact .setsFlags ⟨⟨_, rfl⟩, nofun, nofun⟩ rfl rfl (.memRead s _)
  | ldi =>
    cases h
    exact .setsFlags ⟨⟨_, rfl⟩, nofun, nofun⟩ rfl rfl
      ((State.KeepsCore.memRead s _).trans (.memRead _ _))
  | st | str =>
    cases h
    exact .quiet rfl nofun rfl (.memWrite s _ _)
  | sti =>
    cases h
    exact .quiet rfl nofun rfl ((State.KeepsCore.memRead s _).trans (.memWrite _ _ _))
  | br nzp off =>
    cases (exec_br_eq nzp off s).symm.trans h
    exact .jump rfl nofun (tablePc_br nzp off s)
  | jmp =>
    cases h
    exact .jump rfl nofun rfl
  | jsr off =>
    cases h
    exact .call (fun ⟨_, notJsr, _⟩ => notJsr off rfl) rfl
      (congrArg (s.pc + ·) (sext16_eq_ofInt off (by decide) (by decide)))
  | jsrr base =>
    cases h
    exact .call (fun ⟨_, _, notJsrr⟩ => notJsrr base rfl) rfl
      ⟨fun hb => hb ▸ s.reg_setReg_same 7 s.pc, fun hb => s.reg_setReg_other s.pc hb⟩
  | rti | res | trapUnknown =>
    cases h
    exact .unimplemented rfl nofun rfl
  | trapOut =>
    cases h
    exact .quiet rfl nofun rfl ((State.KeepsCore.conWrite s _).trans (.conFlush _))
  | trapPuts | trapPutsp =>
    cases h
    exact .quiet rfl nofun rfl ((State.KeepsCore.stringLoop _ _ _ s).trans (.conFlush _))
  | trapHalt =>
    cases h
    exact .halt rfl ((State.KeepsCore.conWrites s _).trans (.conFlush _))
  | trapGetc => exact exec_input_effect (.inl rfl) h
  | trapIn => exact exec_input_effect (.inr rfl) h

/-- A step that answers is the step of a HALTED core, or the effect of the decoded instruction on the state
after the fetch (R110, R115). -/
theorem step_cases {s t : State} (h : step s = .next t) :
    (s.run = .halted ∧ t = s) ∨
      (s.run = .running ∧ Effect s.fetch.2 (decode s.fetch.1) t) := by
  rcases hrun : s.run with _ | _
  · exact .inr ⟨rfl, exec_effect ((step_of_running hrun).symm.trans h)⟩
  · exact .inl ⟨rfl, by cases (step_of_halted hrun).symm.trans h; rfl⟩

end Sys2Proof.Machine
end

section
/-!
PROOF. The rules of `10_state.md` over all instructions, each read off the effects: the canonical form of
memory, `run`, COND, the general registers and the traces.
-/

namespace Sys2Proof.Machine

variable {i : Instr} {s t : State} {r : Reg}

/-! ## Memory -/

theorem Effect.wf (h : Effect s i t) (hm : s.mem.wf) : t.mem.wf := by
  cases h with
  | setsFlags flags dest table keeps => exact keeps.wf hm
  | quiet dest noHalt table keeps => exact keeps.wf hm
  | halt isHalt keeps => exact keeps.wf hm
  | unimplemented | jump | call | wait => exact hm

/-- Settles O51: the fetch and every effect keep the form. -/
theorem stepKeepsMemoryCanonical : Obligations.StepKeepsMemoryCanonical := by
  intro s t hinv h
  obtain ⟨-, rfl⟩ | ⟨-, heffect⟩ := step_cases h
  · exact hinv
  · exact heffect.wf (State.fetch_wf hinv)

/-- Settles O14: the empty memory is canonical. -/
theorem resetMemoryIsCanonical : Obligations.ResetMemoryIsCanonical := Memory.nil_wf

/-- Settles O13: the fields of `State.reset`; no cell is listed, so every cell reads as unlisted. -/
theorem resetState : Obligations.ResetState :=
  ⟨State.reg_reset, rfl, rfl, rfl, rfl, Memory.read_nil, rfl⟩

/-! ## The run state -/

theorem ne_trapHalt_of_destination (h : destination i = some r) : i ≠ .trapHalt := by
  rintro rfl
  cases h

/-- The only effect that touches `run` is that of HALT. -/
theorem Effect.run (h : Effect s i t) :
    (i = .trapHalt ∧ t.run = .halted) ∨ (i ≠ .trapHalt ∧ t.run = s.run) := by
  cases h with
  | setsFlags flags dest table keeps => exact .inr ⟨ne_trapHalt_of_destination dest, keeps.run⟩
  | quiet dest noHalt table keeps => exact .inr ⟨noHalt, keeps.run⟩
  | halt isHalt keeps => exact .inl ⟨isHalt, rfl⟩
  | unimplemented dest noHalt table => exact .inr ⟨noHalt, rfl⟩
  | jump dest noHalt table => exact .inr ⟨noHalt, rfl⟩
  | call noFlags dest table => exact .inr ⟨ne_trapHalt_of_destination dest, rfl⟩
  | wait input empty => exact .inr ⟨by rintro rfl; simp at input, rfl⟩

/-- Settles O49: the effects of a RUNNING core's step, and the step of a HALTED core. -/
theorem onlyTrapHaltHalts : Obligations.OnlyTrapHaltHalts := by
  refine ⟨fun s t hrun h => ?_, fun s => step_of_halted⟩
  rw [step_of_running hrun] at h
  obtain ⟨hi, ht⟩ | ⟨hi, ht⟩ := (exec_effect h).run
  · simp [hi, ht]
  · simp [hi, ht, hrun]

/-- A run of one more step than `rest`. -/
theorem runSchedule_cons_next (bs : List Byte) (rest : List (List Byte)) (s t : State) :
    runSchedule (bs :: rest) s = .next t ↔
      ∃ u, step (s.arrive bs) = .next u ∧ runSchedule rest u = .next t := by
  simp only [runSchedule]
  cases step (s.arrive bs) <;> simp

/-- Settles O50, by induction on the schedule: a HALTED core's step answers the state it starts from. -/
theorem haltedIsFinalUnderEverySchedule : Obligations.HaltedIsFinalUnderEverySchedule := by
  intro schedule
  induction schedule with
  | nil => intro s _; simp [runSchedule, State.arrive]
  | cons bs rest ih =>
    intro s hrun
    refine (runSchedule_cons_next bs rest s _).2 ⟨s.arrive bs, step_of_halted hrun, ?_⟩
    rw [ih (s.arrive bs) hrun]
    simp [State.arrive]

/-! ## COND -/

theorem Effect.cond (h : Effect s i t) : t.cond = s.cond ∨ SetsFlags i := by
  cases h with
  | setsFlags flags => exact .inr flags
  | quiet dest noHalt table keeps => exact .inl keeps.cond
  | halt isHalt keeps => exact .inl keeps.cond
  | unimplemented | jump | call | wait => exact .inl rfl

/-- An instruction that sets flags leaves those of its destination (R26), or waits. -/
theorem Effect.flagsOf (h : Effect s i t) (hf : SetsFlags i) (hr : destination i = some r) :
    t.FlagsOf (t.reg r) ∨ ((i = .trapGetc ∨ i = .trapIn) ∧ s.conIn = []) := by
  cases h with
  | @setsFlags q u v flags dest table keeps =>
    obtain rfl : q = r := Option.some.inj (dest.symm.trans hr)
    rw [State.reg_setRegCC_same]
    exact .inl (u.flagsOf_setRegCC q v)
  | quiet dest => cases dest.symm.trans hr
  | unimplemented dest => cases dest.symm.trans hr
  | jump dest => cases dest.symm.trans hr
  | halt isHalt => subst isHalt; cases hr
  | call noFlags => exact absurd hf noFlags
  | wait input empty => exact .inr ⟨input, empty⟩

/-! ## The general registers -/

theorem Effect.reg_of_ne_destination (h : Effect s i t) (hr : destination i ≠ some r) :
    t.reg r = s.reg r := by
  cases h with
  | @setsFlags q u v flags dest table keeps =>
    have hq : r ≠ q := by rintro rfl; exact hr dest
    rw [State.reg_setRegCC_other u v hq, State.reg_congr keeps.regs]
  | quiet dest noHalt table keeps => exact State.reg_congr keeps.regs r
  | halt isHalt keeps => exact State.reg_congr (s := s) keeps.regs r
  | call noFlags dest =>
    have h7 : r ≠ 7 := by rintro rfl; exact hr dest
    exact s.reg_setReg_other s.pc h7
  | unimplemented | jump | wait => rfl

/-- Settles O54: the fetch writes no register, and an effect only the destination. -/
theorem registersChangeOnlyAsDestinations : Obligations.RegistersChangeOnlyAsDestinations := by
  intro s t r h hne
  obtain ⟨-, rfl⟩ | ⟨hrun, heffect⟩ := step_cases h
  · exact absurd rfl hne
  · refine ⟨hrun, by_contra fun hdest => hne ?_⟩
    rw [heffect.reg_of_ne_destination hdest, State.reg_congr s.fetch_regs]

/-! ## The traces -/

/-- `t` is `s` with input taken from the front and more at the end of `con_out` and `diag` (R33, R182). -/
structure State.ExtendsTraces (s t : State) : Prop where
  conIn : t.conIn <:+ s.conIn
  conOut : s.conOut <+: t.conOut
  diag : s.diag <+: t.diag
  par : t.par = s.par

theorem State.ExtendsTraces.refl (s : State) : s.ExtendsTraces s :=
  ⟨List.suffix_rfl, List.prefix_rfl, List.prefix_rfl, rfl⟩

theorem State.KeepsCore.extendsTraces (h : s.KeepsCore t) : s.ExtendsTraces t :=
  ⟨h.conIn, h.conOut, h.diag ▸ List.prefix_rfl, h.par⟩

theorem Effect.extendsTraces (h : Effect s i t) : s.ExtendsTraces t := by
  cases h with
  | setsFlags flags dest table keeps => exact { keeps.extendsTraces with }
  | quiet dest noHalt table keeps => exact keeps.extendsTraces
  | halt isHalt keeps => exact { keeps.extendsTraces with }
  | unimplemented => exact { State.ExtendsTraces.refl s with diag := List.prefix_append _ _ }
  | jump | call | wait => exact { State.ExtendsTraces.refl s with }

/-- Settles O57: the fetch takes input only, and every effect extends the traces. -/
theorem stepsOnlyExtendTheTraces : Obligations.StepsOnlyExtendTheTraces := by
  intro s t h
  have hext : s.ExtendsTraces t := by
    obtain ⟨-, rfl⟩ | ⟨-, heffect⟩ := step_cases h
    · exact .refl t
    · have hread := (State.KeepsCore.memRead s s.pc).extendsTraces
      obtain ⟨hin, hout, hdiag, hpar⟩ := heffect.extendsTraces
      exact ⟨hin.trans hread.conIn, hread.conOut.trans hout, hread.diag.trans hdiag,
        hpar.trans hread.par⟩
  obtain ⟨⟨taken, hin⟩, ⟨out, hout⟩, ⟨words, hdiag⟩, hpar⟩ := hext
  exact ⟨⟨taken, hin.symm⟩, ⟨out, hout.symm⟩, ⟨words, hdiag.symm⟩, hpar⟩

end Sys2Proof.Machine
end

section
/-!
PROOF. The program counter, and the wait of GETC and IN (`10_state.md` R22, R23, R34).
-/

namespace Sys2Proof.Machine

variable {i : Instr} {s t : State}

/-! ## The fetch of GETC and IN -/

/-- A read of KBD_STATUS returns 0x0000 or the ready value (R54 item 1). -/
theorem State.memRead_status_fst (hm : s.mem.wf) :
    (s.memRead kbdStatus).1 = 0x0000 ∨ (s.memRead kbdStatus).1 = kbdReady := by
  rw [State.memRead_status]
  rcases hc : s.conIn with _ | ⟨c, rest⟩
  · exact .inl (by rw [State.read_poll_of_nil hm hc, if_pos rfl])
  · exact .inr (by rw [State.read_poll_of_cons hm hc, if_neg (by decide), if_pos rfl])

/-- GETC and IN are never fetched from KBD_STATUS, whose two values are a BR and an RTI (log entry 3). -/
theorem pc_ne_kbdStatus_of_decode_input (hm : s.mem.wf)
    (hi : decode s.fetch.1 = .trapGetc ∨ decode s.fetch.1 = .trapIn) : s.pc ≠ kbdStatus := by
  intro hpc
  have hword : s.fetch.1 = 0x0000 ∨ s.fetch.1 = kbdReady := by
    rw [State.fetch, hpc]
    exact State.memRead_status_fst hm
  obtain hword | hword := hword <;> rw [hword] at hi <;> exact absurd hi (by decide)

/-- A core that does not wait and fetches GETC or IN has input after the fetch too. -/
theorem fetch_conIn_ne_nil_of_not_waits (hinv : s.Inv) (hrun : s.run = .running) (hw : ¬ s.Waits)
    (hi : decode s.fetch.1 = .trapGetc ∨ decode s.fetch.1 = .trapIn) : s.fetch.2.conIn ≠ [] := by
  rw [State.fetch_plain (pc_ne_kbdStatus_of_decode_input hinv hi)]
  exact fun hc => hw ⟨hrun, hc, hi⟩

/-- Settles O52: of the effects only `setcc` writes COND, and the wait is excluded. -/
theorem condIsWrittenOnlyByFlagSetters : Obligations.CondIsWrittenOnlyByFlagSetters := by
  intro s t hinv hrun hw h
  rw [step_of_running hrun] at h
  have heffect := exec_effect h
  refine ⟨fun hne => ?_, fun r hf hr => ?_⟩
  · obtain hcond | hf := heffect.cond
    · exact absurd (hcond.trans s.fetch_cond) hne
    · exact hf
  · obtain hflags | ⟨hi, hc⟩ := heffect.flagsOf hf hr
    · exact hflags
    · exact absurd hc (fetch_conIn_ne_nil_of_not_waits hinv hrun hw hi)

/-! ## The program counter -/

/-- `pc` follows the table, or the instruction waits. -/
theorem Effect.tablePc (h : Effect s i t) :
    tablePc i s s.pc t.pc ∨ ((i = .trapGetc ∨ i = .trapIn) ∧ s.conIn = []) := by
  cases h with
  | setsFlags flags dest table keeps => exact .inl (by rwa [State.setRegCC_pc, keeps.pc])
  | quiet dest noHalt table keeps => exact .inl (by rwa [keeps.pc])
  | unimplemented dest noHalt table => exact .inl table
  | jump dest noHalt table => exact .inl table
  | call noFlags dest table => exact .inl table
  | halt isHalt keeps => subst isHalt; exact .inl keeps.pc
  | wait input empty => exact .inr ⟨input, empty⟩

/-- The table reads the registers and COND alone. -/
theorem tablePc_congr {p q : Word} (hregs : t.regs = s.regs) (hcond : t.cond = s.cond)
    (h : tablePc i t p q) : tablePc i s p q := by
  cases i with
  | br nzp off => simpa only [Machine.tablePc, hcond] using h
  | jmp base => simpa only [Machine.tablePc, State.reg_congr hregs] using h
  | jsrr base => simpa only [Machine.tablePc, State.reg_congr hregs] using h
  | _ => exact h

/-- Settles O12: the fetch keeps what the table reads, and every effect but the wait follows it. -/
theorem programCounterFollowsTheTable : Obligations.ProgramCounterFollowsTheTable := by
  intro s t hinv hrun hw h
  rw [step_of_running hrun] at h
  obtain htable | ⟨hi, hc⟩ := (exec_effect h).tablePc
  · exact tablePc_congr s.fetch_regs s.fetch_cond htable
  · exact absurd hc (fetch_conIn_ne_nil_of_not_waits hinv hrun hw hi)

/-! ## The wait -/

/-- Settles O47: the wait takes `pc` back to where the plain fetch found it. -/
theorem waitingCoreStaysAsItIs : Obligations.WaitingCoreStaysAsItIs := by
  rintro s hinv ⟨hrun, hc, hi⟩
  have hfetch := State.fetch_plain (pc_ne_kbdStatus_of_decode_input hinv hi)
  calc step s
      = exec (decode s.fetch.1) s.fetch.2 := step_of_running hrun
    _ = .next s.fetch.2.notYet := exec_input_of_nil hi (by rw [hfetch]; exact hc)
    _ = .next s := by simp [hfetch, State.notYet, State.setPc]

/-- Settles O48: input does not change what a plain fetch reads, so the next step runs the same GETC or IN,
with a byte to take. -/
theorem arrivalEndsTheWait : Obligations.ArrivalEndsTheWait := by
  rintro s c rest hinv ⟨hrun, hc, hi⟩
  have hpc := pc_ne_kbdStatus_of_decode_input hinv hi
  rw [State.fetch_plain hpc] at hi
  have hin : ((s.arrive (c :: rest)).setPc (s.pc + 1)).conIn = c :: rest := by simp [hc]
  obtain ⟨u, hexec, keeps, hrest⟩ := exec_input_of_cons hi hin
  have hfetch : (s.arrive (c :: rest)).fetch =
      (s.mem.read s.pc.toNat, (s.arrive (c :: rest)).setPc (s.pc + 1)) := State.fetch_plain hpc
  refine ⟨u.setRegCC 0 (zext16 c), ?_, keeps.pc, ?_, hrest, keeps.run.trans hrun⟩
  · rw [step_of_running (s := s.arrive (c :: rest)) hrun, hfetch]
    exact hexec
  · rw [State.reg_setRegCC_same, toNat_zext16]

end Sys2Proof.Machine
end

section
/-!
PROOF. What nothing reads: COND but for BR (R27), and the traces `con_out` and `diag` (R35, R182).  Both
statements say that every operation commutes with `State.overlay`.
-/

namespace Sys2Proof.Machine

/-- The state with another COND and with more at the front of the two traces. -/
def State.overlay (c : Cond) (out : List ConEvent) (words : List Word) (s : State) : State :=
  { s with cond := c, conOut := out ++ s.conOut, diag := words ++ s.diag }

section
variable (c : Cond) (out : List ConEvent) (words : List Word) (s : State)

/-! ## The operations -/

@[simp] theorem State.overlay_pc : (s.overlay c out words).pc = s.pc := rfl

@[simp] theorem State.overlay_reg (r : Reg) : (s.overlay c out words).reg r = s.reg r := rfl

@[simp] theorem State.overlay_par : (s.overlay c out words).par = s.par := rfl

@[simp] theorem State.overlay_pcRel9 (off : BitVec 9) :
    (s.overlay c out words).pcRel9 off = s.pcRel9 off := rfl

@[simp] theorem stringFuel_overlay : stringFuel (s.overlay c out words) = stringFuel s := rfl

@[simp] theorem State.overlay_conWrites (bs : List Byte) :
    (s.overlay c out words).conWrites bs = (s.conWrites bs).overlay c out words := by
  simp [State.overlay, State.conWrites]

@[simp] theorem State.overlay_conWrite (b : Byte) :
    (s.overlay c out words).conWrite b = (s.conWrite b).overlay c out words :=
  s.overlay_conWrites c out words [b]

@[simp] theorem State.overlay_conFlush :
    (s.overlay c out words).conFlush = s.conFlush.overlay c out words := by
  simp [State.overlay, State.conFlush]

/-- What IN does before it writes R0. -/
theorem State.overlay_echo (rest bs : List Byte) (b : Byte) :
    (({ s.overlay c out words with conIn := rest } : State).conWrites bs).conWrite b =
      ((({ s with conIn := rest } : State).conWrites bs).conWrite b).overlay c out words := by
  rw [← State.overlay_conWrite, ← State.overlay_conWrites]
  rfl

@[simp] theorem State.overlay_unimplemented (ir : Word) :
    (s.overlay c out words).unimplemented ir = (s.unimplemented ir).overlay c out words := by
  simp [State.overlay, State.unimplemented]

theorem State.overlay_pollKeyboard :
    (s.overlay c out words).pollKeyboard = s.pollKeyboard.overlay c out words := by
  rcases h : s.conIn with _ | ⟨b, rest⟩
  · rw [State.pollKeyboard_of_nil h, State.pollKeyboard_of_nil (s := s.overlay c out words) h]
    rfl
  · rw [State.pollKeyboard_of_cons h, State.pollKeyboard_of_cons (s := s.overlay c out words) h]
    rfl

@[simp] theorem State.overlay_memRead (a : Word) : (s.overlay c out words).memRead a =
    ((s.memRead a).1, (s.memRead a).2.overlay c out words) := by
  by_cases h : a = kbdStatus
  · rw [h, State.memRead_status, State.memRead_status, State.overlay_pollKeyboard]
    rfl
  · rw [State.memRead_plain _ h, State.memRead_plain _ h]
    rfl

@[simp] theorem State.overlay_fetch : (s.overlay c out words).fetch =
    (s.fetch.1, s.fetch.2.overlay c out words) := by
  unfold State.fetch
  rw [State.overlay_pc, State.overlay_memRead]
  rfl

@[simp] theorem State.overlay_loadTo (r : Reg) (a : Word) : (s.overlay c out words).loadTo r a =
    (s.loadTo r a).overlay (s.loadTo r a).cond out words := by
  unfold State.loadTo
  rw [State.overlay_memRead]
  rfl

@[simp] theorem stringLoop_overlay (bytes : Word → List Byte) (fuel : Nat) (a : Word) (s : State) :
    stringLoop bytes fuel a (s.overlay c out words) =
      (stringLoop bytes fuel a s).overlay c out words := by
  induction fuel generalizing a s with
  | zero => rfl
  | succ n ih =>
    rw [stringLoop_succ, stringLoop_succ, State.overlay_memRead, State.overlay_conWrites, ih]
    split <;> rfl

end

/-! ## The instructions -/

/-- From an overlaid state every instruction answers the overlay of its answer, with the same COND where
the overlay had the same; BR, the only reader of COND, only where the overlay had the same (R27). -/
theorem exec_overlay {i : Instr} {s t : State} {c : Cond} (out : List ConEvent) (words : List Word)
    (hi : (∀ nzp off, i ≠ .br nzp off) ∨ c = s.cond) (h : exec i s = .next t) :
    ∃ c', exec i (s.overlay c out words) = .next (t.overlay c' out words) ∧
      (c = s.cond → c' = t.cond) := by
  cases i with
  | br nzp off =>
    obtain hi | rfl := hi
    · exact absurd rfl (hi nzp off)
    · rw [exec_br_eq] at h
      cases h
      exact ⟨_, exec_br_eq nzp off _, fun _ => rfl⟩
  | addReg | addImm | andReg | andImm | not | lea =>
    cases h
    exact ⟨_, rfl, fun _ => rfl⟩
  | ld dr off =>
    cases h
    exact ⟨_, congrArg _ (s.overlay_loadTo c out words dr (s.pcRel9 off)), fun _ => rfl⟩
  | ldr dr base off =>
    cases h
    exact ⟨_, congrArg _ (s.overlay_loadTo c out words dr (s.baseOff6 base off)), fun _ => rfl⟩
  | ldi =>
    cases h
    exact ⟨_, by simp only [exec, execLdi, State.overlay_pcRel9, State.overlay_memRead,
      State.overlay_loadTo], fun _ => rfl⟩
  | st | str | jmp | jsr | jsrr =>
    cases h
    exact ⟨_, rfl, id⟩
  | sti =>
    cases h
    refine ⟨c, ?_, by simp⟩
    simp only [exec, execSti, State.overlay_pcRel9, State.overlay_memRead]
    rfl
  | rti | res | trapUnknown =>
    cases h
    exact ⟨c, congrArg _ (s.overlay_unimplemented c out words _), id⟩
  | trapOut | trapPuts | trapPutsp =>
    cases h
    refine ⟨c, ?_, by simp⟩
    simp [exec, execTrapOut, execTrapPuts, execTrapPutsp]
  | trapHalt =>
    cases h
    refine ⟨c, ?_, id⟩
    simp only [exec, execTrapHalt, State.overlay_par, State.overlay_conWrites,
      State.overlay_conFlush]
    rfl
  | trapGetc =>
    rcases hc : s.conIn with _ | ⟨b, rest⟩
    · cases (exec_input_of_nil (.inl rfl) hc).symm.trans h
      exact ⟨c, exec_input_of_nil (.inl rfl) hc, id⟩
    · rw [exec_trapGetc_of_cons hc] at h
      cases h
      exact ⟨_, exec_trapGetc_of_cons (s := s.overlay c out words) hc, fun _ => rfl⟩
  | trapIn =>
    rcases hc : s.conIn with _ | ⟨b, rest⟩
    · cases (exec_input_of_nil (.inr rfl) hc).symm.trans h
      exact ⟨c, exec_input_of_nil (.inr rfl) hc, id⟩
    · rw [exec_trapIn_of_cons hc] at h
      cases h
      exact ⟨_, (exec_trapIn_of_cons (s := s.overlay c out words) hc).trans
        (congrArg (fun u : State => Host.Outcome.next (u.setRegCC 0 (zext16 b)))
          (s.overlay_echo c out words rest s.par.inPrompt b)), fun _ => rfl⟩

/-- Settles O53: the answer from the state with another COND is the answer itself but for COND. -/
theorem onlyBranchReadsCond : Obligations.OnlyBranchReadsCond := by
  intro i s t c hi h
  obtain ⟨c', hu, -⟩ := exec_overlay (c := c) [] [] (.inl hi) h
  exact ⟨_, hu, rfl⟩

/-- A step from a state with more at the front of its traces (R35, R182). -/
theorem step_overlay {s t : State} (out : List ConEvent) (words : List Word) (h : step s = .next t) :
    step (s.overlay s.cond out words) = .next (t.overlay t.cond out words) := by
  rcases hrun : s.run with _ | _
  · rw [step_of_running hrun] at h
    obtain ⟨c', hc', hcond⟩ := exec_overlay out words (.inr rfl) h
    rw [step_of_running (s := s.overlay s.cond out words) hrun, State.overlay_fetch, ← hcond rfl,
      ← hc', s.fetch_cond]
  · cases (step_of_halted hrun).symm.trans h
    exact step_of_halted hrun

/-- Settles O58, by induction on the schedule: arrivals and steps keep the overlay. -/
theorem tracesAreNeverRead : Obligations.TracesAreNeverRead := by
  intro schedule
  induction schedule with
  | nil => rintro s _ out words ⟨⟩; rfl
  | cons bs rest ih =>
    intro s t out words h
    obtain ⟨u, hstep, hrest⟩ := (runSchedule_cons_next bs rest s t).1 h
    exact (runSchedule_cons_next bs rest _ _).2
      ⟨u.overlay u.cond out words, step_overlay out words hstep, ih u t out words hrest⟩

end Sys2Proof.Machine
end

section
/-!
PROOF. Memory and the keyboard cells (`20_memory.md`): what a read of KBD_STATUS answers and leaves, what a
`MemWrite` changes, a fetch from KBD_STATUS, a store into the next cell, and that an instruction changes no
cell but the one it stores to and the two of the keyboard.
-/

namespace Sys2Proof.Machine

variable {i : Instr} {s t : State}

/-! ## A read of KBD_STATUS (R53) -/

/-- With no input waiting a read of KBD_STATUS returns 0x0000 and clears the cell. -/
theorem State.memRead_status_of_nil (hm : s.mem.wf) (hc : s.conIn = []) :
    s.memRead kbdStatus = (0x0000, s.memWrite kbdStatus 0x0000) := by
  rw [State.memRead_status, State.read_poll_of_nil hm hc, if_pos rfl, State.pollKeyboard_of_nil hc]

/-- With a byte waiting a read of KBD_STATUS returns the ready value, takes the byte and latches it. -/
theorem State.memRead_status_of_cons (hm : s.mem.wf) {c : Byte} {rest : List Byte}
    (hc : s.conIn = c :: rest) :
    s.memRead kbdStatus = (kbdReady,
      (({ s with conIn := rest }).memWrite kbdStatus kbdReady).memWrite kbdData (zext16 c)) := by
  rw [State.memRead_status, State.read_poll_of_cons hm hc, if_neg (by decide), if_pos rfl,
    State.pollKeyboard_of_cons hc]

/-- The cells after a read of KBD_STATUS with no input waiting. -/
theorem State.read_memRead_status_of_nil (hm : s.mem.wf) (hc : s.conIn = []) (b : Nat) :
    (s.memRead kbdStatus).2.mem.read b = if b = 0xFE00 then 0 else s.mem.read b := by
  rw [State.memRead_status]
  exact State.read_poll_of_nil hm hc b

/-- The cells after a read of KBD_STATUS with a byte waiting. -/
theorem State.read_memRead_status_of_cons (hm : s.mem.wf) {c : Byte} {rest : List Byte}
    (hc : s.conIn = c :: rest) (b : Nat) :
    (s.memRead kbdStatus).2.mem.read b =
      if b = 0xFE02 then zext16 c else if b = 0xFE00 then kbdReady else s.mem.read b := by
  rw [State.memRead_status]
  exact State.read_poll_of_cons hm hc b

/-- A read of KBD_STATUS takes the first waiting byte. -/
theorem State.memRead_status_conIn {c : Byte} {rest : List Byte} (hc : s.conIn = c :: rest) :
    (s.memRead kbdStatus).2.conIn = rest := by
  rw [State.memRead_conIn, if_pos rfl, hc, List.tail_cons]

/-- Settles O21: the plain read, and the poll without and with a byte. -/
theorem memReadPollsTheKeyboard : Obligations.MemReadPollsTheKeyboard := by
  intro s hm
  refine ⟨fun a => s.memRead_plain, fun hc => ?_, fun c rest hc => ?_⟩
  · have hread := State.memRead_status_of_nil hm hc
    have hcell := State.read_memRead_status_of_nil hm hc
    refine ⟨congrArg Prod.fst hread, ?_, (hcell _).trans (if_pos rfl),
      fun b hb => (hcell b).trans (if_neg hb)⟩
    change (s.memRead kbdStatus).2 = { s with mem := (s.memRead kbdStatus).2.mem }
    rw [hread]
    rfl
  · have hread := State.memRead_status_of_cons hm hc
    have hcell := State.read_memRead_status_of_cons hm hc
    refine ⟨congrArg Prod.fst hread, ?_, hcell 0xFE00, hcell 0xFE02,
      fun b hstatus hdata => (hcell b).trans ((if_neg hdata).trans (if_neg hstatus))⟩
    change (s.memRead kbdStatus).2 =
      { s with mem := (s.memRead kbdStatus).2.mem, conIn := rest }
    rw [hread]
    rfl

/-- Settles O22: the second poll latches the second byte over the first, and KBD_DATA is a plain cell. -/
theorem secondStatusReadLosesTheFirstByte : Obligations.SecondStatusReadLosesTheFirstByte := by
  intro s c d rest hm hc u
  have hc₁ : (s.memRead kbdStatus).2.conIn = d :: rest := State.memRead_status_conIn hc
  have hdata : u.mem.read 0xFE02 = zext16 d :=
    State.read_memRead_status_of_cons (State.memRead_wf hm kbdStatus) hc₁ 0xFE02
  refine ⟨State.memRead_status_conIn hc₁, ?_⟩
  calc u.memRead kbdData
      = (u.mem.read 0xFE02, u) := u.memRead_plain (by decide)
    _ = (zext16 d, u) := by rw [hdata]

/-! ## MemWrite (R55) -/

/-- Settles O23: `MemWrite` replaces one cell. -/
theorem memWriteStoresOneCell : Obligations.MemWriteStoresOneCell := by
  intro s a v hm
  have hcell := State.read_memWrite hm a v
  exact ⟨(hcell _).trans (if_pos rfl), fun b hb => (hcell b).trans (if_neg hb), rfl⟩

/-- Settles O24: a plain read finds the written Word, and a read of KBD_STATUS only its two values. -/
theorem writtenWordIsReadBackExceptAtTheStatusCell :
    Obligations.WrittenWordIsReadBackExceptAtTheStatusCell := by
  intro s a v hm
  refine ⟨fun ha => ?_, State.memRead_status_fst (State.memWrite_wf hm kbdStatus v)⟩
  rw [State.memRead_plain _ ha, State.read_memWrite hm, if_pos rfl]

/-! ## A fetch from KBD_STATUS (R70) -/

/-- The step of a RUNNING core at KBD_STATUS executes what the poll answers. -/
theorem step_at_kbdStatus (hrun : s.run = .running) (hpc : s.pc = kbdStatus) :
    step s = exec (decode (s.memRead kbdStatus).1) ((s.memRead kbdStatus).2.setPc 0xFE01) := by
  rw [step_of_running hrun, State.fetch, hpc]
  rfl

/-- The ready value is an RTI: the step only records it. -/
theorem exec_decode_kbdReady (s : State) :
    exec (decode kbdReady) s = .next (s.unimplemented 0x8000) := by
  rw [show decode kbdReady = .rti 0 by decide]
  rfl

/-- 0x0000 is a branch never taken. -/
theorem exec_decode_zero (s : State) : exec (decode 0x0000) s = .next s := by
  have hnot : brTaken 0 s.cond = false := by cases s.cond <;> rfl
  rw [show decode 0x0000 = .br 0 0 by decide, exec_br_eq, hnot]
  rfl

/-- Settles O10: the poll of the fetch, then RTI or the branch never taken. -/
theorem fetchFromKeyboardStatusPolls : Obligations.FetchFromKeyboardStatusPolls := by
  intro s hm hrun hpc
  have hstep := step_at_kbdStatus hrun hpc
  refine ⟨fun c rest hc => ?_, fun hc => ?_⟩
  · rw [congrArg Prod.fst (State.memRead_status_of_cons hm hc), exec_decode_kbdReady] at hstep
    have hcell := State.read_memRead_status_of_cons hm hc
    refine ⟨_, hstep, rfl, State.memRead_status_conIn hc, hcell 0xFE00, hcell 0xFE02,
      fun b hstatus hdata => (hcell b).trans ((if_neg hdata).trans (if_neg hstatus)), ?_⟩
    simp [hrun]
  · rw [congrArg Prod.fst (State.memRead_status_of_nil hm hc), exec_decode_zero] at hstep
    have hcell := State.read_memRead_status_of_nil hm hc
    refine ⟨_, hstep, rfl, ?_, hcell 0xFE00, fun b hb => (hcell b).trans (if_neg hb), ?_⟩
    · simp [State.memRead_conIn, hc]
    · simp [State.KeepsControl]

/-! ## The stores (R65, R68) -/

/-- ST, STI and STR end with a `MemWrite` of the source register at their store address. -/
theorem exec_store {sr : Reg} {w : Word}
    (hi : (∃ off, i = .st sr off) ∨ (∃ off, i = .sti sr off) ∨ (∃ base off, i = .str sr base off))
    (hw : storeAddress i s = some w) :
    ∃ u, s.KeepsCore u ∧ exec i s = .next (u.memWrite w (s.reg sr)) := by
  obtain ⟨off, rfl⟩ | ⟨off, rfl⟩ | ⟨base, off, rfl⟩ := hi <;> cases hw
  · exact ⟨s, .refl s, rfl⟩
  · exact ⟨_, .memRead s (s.pcRel9 off), rfl⟩
  · exact ⟨s, .refl s, rfl⟩

/-- The fetch of a RUNNING core finds the Word that was just written at its `pc`. -/
theorem step_memWrite_pc (hm : s.mem.wf) (hrun : s.run = .running) (hpc : s.pc ≠ kbdStatus)
    (v : Word) : step (s.memWrite s.pc v) =
      exec (decode v) ((s.memWrite s.pc v).setPc (s.pc + 1)) := by
  rw [step_of_running (s := s.memWrite s.pc v) hrun,
    State.fetch_plain (s := s.memWrite s.pc v) hpc, State.memWrite_pc, State.read_memWrite hm,
    if_pos rfl]

/-- Settles O25: the step is a store at the `pc` it leaves, and the next fetch reads that cell. -/
theorem storedWordIsFetchedNext : Obligations.StoredWordIsFetchedNext := by
  intro s t i sr hm hrun hdecode hi haddr hne h
  obtain ⟨u, keeps, hexec⟩ := exec_store hi haddr
  have hpc : u.pc = s.pc + 1 := keeps.pc
  have hreg : s.fetch.2.reg sr = s.reg sr := State.reg_congr s.fetch_regs sr
  rw [step_of_running hrun, hdecode, hexec, ← hpc, hreg] at h
  cases h
  rw [step_memWrite_pc (keeps.wf (State.fetch_wf hm)) ((keeps.run.trans s.fetch_run).trans hrun)
    (hpc ▸ hne), hpc, BitVec.add_assoc]
  rfl

/-! ## The cells an instruction changes (R55, R72) -/

/-- The string loop leaves every cell but the two of the keyboard as it was. -/
theorem read_stringLoop_other (bytes : Word → List Byte) {b : Nat} (hstatus : b ≠ kbdStatus.toNat)
    (hdata : b ≠ kbdData.toNat) (fuel : Nat) (a : Word) {s : State} (hm : s.mem.wf) :
    (stringLoop bytes fuel a s).mem.read b = s.mem.read b := by
  induction fuel generalizing a s with
  | zero => rfl
  | succ n ih =>
    have hread := State.read_memRead_other hm a hstatus hdata
    rw [stringLoop_succ]
    split
    · exact hread
    · exact (ih (a + 1) (s := (s.memRead a).2.conWrites _) (State.memRead_wf hm a)).trans hread

/-- GETC and IN access no memory, whether they wait or not. -/
theorem exec_input_mem (hi : i = .trapGetc ∨ i = .trapIn) (h : exec i s = .next t) :
    t.mem = s.mem := by
  rcases hc : s.conIn with _ | ⟨c, rest⟩
  · cases (exec_input_of_nil hi hc).symm.trans h
    rfl
  · obtain rfl | rfl := hi
    · cases (exec_trapGetc_of_cons hc).symm.trans h
      rfl
    · cases (exec_trapIn_of_cons hc).symm.trans h
      rfl

/-- An instruction changes no cell but the two of the keyboard and the one it stores to. -/
theorem exec_read_other (hm : s.mem.wf) (h : exec i s = .next t) {b : Nat}
    (hstatus : b ≠ kbdStatus.toNat) (hdata : b ≠ kbdData.toNat)
    (hstore : ∀ w, storeAddress i s = some w → b ≠ w.toNat) : t.mem.read b = s.mem.read b := by
  have hread (a : Word) := State.read_memRead_other hm a hstatus hdata
  cases i with
  | ld | ldr =>
    cases h
    exact hread _
  | ldi =>
    cases h
    exact (State.read_memRead_other (State.memRead_wf hm _) _ hstatus hdata).trans (hread _)
  | st | str =>
    cases h
    exact (State.read_memWrite hm _ _ b).trans (if_neg (hstore _ rfl))
  | sti =>
    cases h
    exact ((State.read_memWrite (State.memRead_wf hm _) _ _ b).trans
      (if_neg (hstore _ rfl))).trans (hread _)
  | trapPuts | trapPutsp =>
    cases h
    exact read_stringLoop_other _ hstatus hdata _ _ hm
  | trapGetc => rw [exec_input_mem (.inl rfl) h]
  | trapIn => rw [exec_input_mem (.inr rfl) h]
  | br =>
    cases (exec_br_eq _ _ s).symm.trans h
    rfl
  | addReg | addImm | andReg | andImm | not | lea | jmp | jsr | jsrr | rti | res | trapUnknown
  | trapOut | trapHalt =>
    cases h
    rfl

/-- Settles O55: neither the fetch nor the instruction changes any other cell. -/
theorem memoryChangesOnlyByStoreOrLatch : Obligations.MemoryChangesOnlyByStoreOrLatch := by
  intro s t a hm h hne
  rcases hrun : s.run with _ | _
  · refine ⟨rfl, by_contra fun hother => hne ?_⟩
    have hstatus : a ≠ 0xFE00 := fun ha => hother (.inl ha)
    have hdata : a ≠ 0xFE02 := fun ha => hother (.inr (.inl ha))
    rw [step_of_running hrun] at h
    calc t.mem.read a
        = s.fetch.2.mem.read a := exec_read_other (State.fetch_wf hm) h hstatus hdata
          fun w hw ha => hother (.inr (.inr ⟨w, hw, ha⟩))
      _ = s.mem.read a := State.read_memRead_other hm s.pc hstatus hdata
  · cases (step_of_halted hrun).symm.trans h
    exact absurd rfl hne

end Sys2Proof.Machine
end

section
/-!
PROOF. An effective address is the base plus the signed value of the offset field (`30_encoding.md` R93),
modulo 2^16 (R52).
-/

namespace Sys2Proof.Machine

/-- A Word plus an offset of R93, as numbers: the base plus the signed field, modulo 2^16. -/
theorem toNat_add_sext16 (base : Word) {n : Nat} (f : BitVec n) (hpos : 1 ≤ n) (hn : n ≤ 16) :
    ((base + sext16 f).toNat : Int) = ((base.toNat : Int) + f.toInt) % 65536 := by
  rw [sext16_eq_ofInt f hpos hn, BitVec.toNat_add, BitVec.toNat_ofInt]
  omega

/-- Settles O7: each of the three address forms is the same sum. -/
theorem offsetsAreSigned : Obligations.OffsetsAreSigned := fun s off6 off9 off11 base =>
  ⟨toNat_add_sext16 s.pc off9 (by decide) (by decide),
    toNat_add_sext16 s.pc off11 (by decide) (by decide),
    toNat_add_sext16 (s.reg base) off6 (by decide) (by decide)⟩

end Sys2Proof.Machine
end

section
/-!
PROOF. The decoder and the opcode table (`30_encoding.md` R82, R94, R95).  A Word that matches the row of an
instruction decodes to that row's instruction with the Word's own fields as operands
(`Instr.withFieldsOf`); a Word's decoded instruction has a row that the Word matches.  So the rows exclude
each other, and two Words that agree on the bits a row reads decode alike.
-/

namespace Sys2Proof

variable {w v m : Word}

/-! ## Words that agree under a mask -/

/-- Words that agree under a mask agree on every bit of the mask. -/
theorem getLsbD_eq_of_and_eq (h : w &&& m = v &&& m) {k : Nat} (hk : m.getLsbD k = true) :
    w.getLsbD k = v.getLsbD k := by
  have hbit := congrArg (BitVec.getLsbD · k) h
  simpa [hk] using hbit

/-- Words that agree under a mask agree on every field that the mask covers. -/
theorem extractLsb'_eq_of_and_eq (h : w &&& m = v &&& m) {lo n : Nat}
    (hm : ∀ j, j < n → m.getLsbD (lo + j) = true) : w.extractLsb' lo n = v.extractLsb' lo n := by
  apply BitVec.eq_of_getLsbD_eq
  intro j hj
  simp only [BitVec.getLsbD_extractLsb', getLsbD_eq_of_and_eq h (hm j hj)]

/-- A register field that the mask covers holds the same register number (R83). -/
theorem regField_eq_of_and_eq (h : w &&& m = v &&& m) {lo : Nat}
    (hm : ∀ j, j < 3 → m.getLsbD (lo + j) = true) :
    (w.extractLsb' lo 3).toFin = (v.extractLsb' lo 3).toFin :=
  congrArg BitVec.toFin (extractLsb'_eq_of_and_eq h hm)

/-- Words that agree under a mask agree under any part of it. -/
theorem and_eq_of_and_eq (h : w &&& m = v &&& m) {p : Word} (hp : m &&& p = p) :
    w &&& p = v &&& p := by
  rw [← hp, ← BitVec.and_assoc, h, BitVec.and_assoc]

/-! ## What the masks of the opcode table leave of a Word -/

/-- The mask of a field leaves the field's value at its place. -/
theorem and_fieldAt_allOnes (w : Word) (lo n : Nat) :
    w &&& fieldAt (BitVec.allOnes n) lo = BitVec.ofNat 16 (w.extractLsb' lo n).toNat <<< lo := by
  rw [BitVec.ofNat_toNat]
  change _ = fieldAt (w.extractLsb' lo n) lo
  apply BitVec.eq_of_getLsbD_eq
  intro k hk
  rw [BitVec.getLsbD_and, getLsbD_fieldAt, getLsbD_fieldAt, BitVec.getLsbD_extractLsb',
    BitVec.getLsbD_allOnes]
  by_cases hlo : k < lo
  · simp [hlo]
  · simp [hk, hlo, Nat.add_sub_cancel' (Nat.le_of_not_lt hlo), Bool.and_comm]

/-- The opcode in its place (R81). -/
theorem and_opcodeMask (w : Word) :
    w &&& (0xF000 : Word) = BitVec.ofNat 16 (opcodeField w).toNat <<< 12 :=
  and_fieldAt_allOnes w 12 4

/-- ADD and AND: the opcode and the immediate flag (R81). -/
theorem and_immMask (w : Word) : w &&& (0xF020 : Word) =
    BitVec.ofNat 16 (opcodeField w).toNat <<< 12 ||| if immFlag w then 0x0020 else 0 := by
  rw [show (0xF020 : Word) = 0xF000 ||| BitVec.twoPow 16 5 by decide, BitVec.and_or_distrib_left,
    and_opcodeMask, BitVec.and_twoPow]
  rfl

/-- JSR and JSRR: the opcode and the long-jump flag (R90). -/
theorem and_longMask (w : Word) : w &&& (0xF800 : Word) =
    BitVec.ofNat 16 (opcodeField w).toNat <<< 12 ||| if longFlag w then 0x0800 else 0 := by
  rw [show (0xF800 : Word) = 0xF000 ||| BitVec.twoPow 16 11 by decide, BitVec.and_or_distrib_left,
    and_opcodeMask, BitVec.and_twoPow]
  rfl

/-- The services: the opcode and the trap vector (R91). -/
theorem and_serviceMask (w : Word) : w &&& (0xF0FF : Word) =
    BitVec.ofNat 16 (opcodeField w).toNat <<< 12 |||
      BitVec.ofNat 16 (vectField w).toNat <<< 0 := by
  rw [show (0xF0FF : Word) = 0xF000 ||| fieldAt (BitVec.allOnes 8) 0 by decide,
    BitVec.and_or_distrib_left, and_opcodeMask, and_fieldAt_allOnes]
  rfl

/-! ## The rows of the opcode table -/

/-- The match of a row lies inside its mask. -/
theorem rowMatch_and_rowMask (i : Instr) : rowMatch i &&& rowMask i = rowMatch i := by
  cases i <;> simp only [rowMatch, rowMask] <;> decide

/-- The bits that select a row are among those its instruction reads (R94). -/
theorem readMask_and_rowMask (i : Instr) : readMask i &&& rowMask i = rowMask i := by
  cases i <;> simp only [readMask, rowMask] <;> decide

/-- Every row fixes the opcode (R81). -/
theorem rowMask_and_opcodeMask (i : Instr) : rowMask i &&& 0xF000 = 0xF000 := by
  cases i <;> simp only [rowMask] <;> decide

/-- A Word that matches a row has the row's opcode. -/
theorem opcodeField_of_matches {i : Instr} (h : w &&& rowMask i = rowMatch i) :
    opcodeField w = opcodeField (rowMatch i) :=
  extractLsb'_eq_of_and_eq
    (and_eq_of_and_eq (h.trans (rowMatch_and_rowMask i).symm) (rowMask_and_opcodeMask i)) (by decide)

/-! ## The decoder, row by row -/

/-- The instruction of the row of `i` whose operands are the fields of `w` (R84 to R91). -/
def Instr.withFieldsOf (w : Word) (i : Instr) : Instr :=
  match i with
  | .br _ _ => .br (nzpField w) (off9Field w)
  | .addReg _ _ _ => .addReg (drField w) (sr1Field w) (sr2Field w)
  | .addImm _ _ _ => .addImm (drField w) (sr1Field w) (imm5Field w)
  | .ld _ _ => .ld (drField w) (off9Field w)
  | .st _ _ => .st (drField w) (off9Field w)
  | .jsr _ => .jsr (off11Field w)
  | .jsrr _ => .jsrr (sr1Field w)
  | .andReg _ _ _ => .andReg (drField w) (sr1Field w) (sr2Field w)
  | .andImm _ _ _ => .andImm (drField w) (sr1Field w) (imm5Field w)
  | .ldr _ _ _ => .ldr (drField w) (sr1Field w) (off6Field w)
  | .str _ _ _ => .str (drField w) (sr1Field w) (off6Field w)
  | .rti _ => .rti (w.extractLsb' 0 12)
  | .not _ _ => .not (drField w) (sr1Field w)
  | .ldi _ _ => .ldi (drField w) (off9Field w)
  | .sti _ _ => .sti (drField w) (off9Field w)
  | .jmp _ => .jmp (sr1Field w)
  | .res _ => .res (w.extractLsb' 0 12)
  | .lea _ _ => .lea (drField w) (off9Field w)
  | .trapGetc => .trapGetc
  | .trapOut => .trapOut
  | .trapPuts => .trapPuts
  | .trapIn => .trapIn
  | .trapPutsp => .trapPutsp
  | .trapHalt => .trapHalt
  | .trapUnknown _ _ => .trapUnknown (w.extractLsb' 8 4) (vectField w)

@[simp] theorem rowMask_withFieldsOf (w : Word) (i : Instr) : rowMask (i.withFieldsOf w) = rowMask i := by
  cases i <;> rfl

@[simp] theorem rowMatch_withFieldsOf (w : Word) (i : Instr) :
    rowMatch (i.withFieldsOf w) = rowMatch i := by
  cases i <;> rfl

/-- A Word that matches a row other than the fallback row decodes to that row's instruction (R95). -/
theorem decode_of_matches {i : Instr} (hi : ∀ h v, i ≠ .trapUnknown h v)
    (h : w &&& rowMask i = rowMatch i) : decode w = i.withFieldsOf w := by
  have hagree : w &&& rowMask i = rowMatch i &&& rowMask i := h.trans (rowMatch_and_rowMask i).symm
  have hop := opcodeField_of_matches h
  cases i
  all_goals simp only [rowMask, rowMatch] at hagree hop
  case br | ld | st | ldr | str | rti | not | ldi | sti | jmp | res | lea =>
    rw [decode, hop]
    rfl
  case addReg | andReg | addImm | andImm =>
    have hflag : immFlag w = immFlag _ := getLsbD_eq_of_and_eq hagree (by decide)
    rw [decode, hop, hflag]
    rfl
  case jsr | jsrr =>
    have hflag : longFlag w = longFlag _ := getLsbD_eq_of_and_eq hagree (by decide)
    rw [decode, hop, hflag]
    rfl
  case trapGetc | trapOut | trapPuts | trapIn | trapPutsp | trapHalt =>
    have hvect : vectField w = vectField _ := extractLsb'_eq_of_and_eq hagree (by decide)
    rw [decode, hop]
    change decodeTrap w = _
    rw [decodeTrap, hvect]
    rfl
  case trapUnknown high vect => exact absurd rfl (hi high vect)

/-- A Word with opcode 0xF matches the row of the instruction its vector selects. -/
theorem matches_decodeTrap (hop : (opcodeField w).toNat = 0xF) :
    w &&& rowMask (decodeTrap w) = rowMatch (decodeTrap w) := by
  rw [decodeTrap]
  split
  case h_1 hvect | h_2 hvect | h_3 hvect | h_4 hvect | h_5 hvect | h_6 hvect =>
    exact (and_serviceMask w).trans (by rw [hop, hvect]; rfl)
  case h_7 => exact (and_opcodeMask w).trans (by rw [hop]; rfl)

/-- Every Word matches the row of the instruction it decodes to (R82, R95). -/
theorem matches_decode (w : Word) : w &&& rowMask (decode w) = rowMatch (decode w) := by
  rw [decode]
  split
  case h_1 hop | h_3 hop | h_4 hop | h_7 hop | h_8 hop | h_9 hop | h_10 hop | h_11 hop | h_12 hop |
      h_13 hop | h_14 hop | h_15 hop =>
    exact (and_opcodeMask w).trans (by rw [hop]; rfl)
  case h_2 hop | h_6 hop =>
    split
    case isTrue hflag => exact (and_immMask w).trans (by rw [hop, if_pos hflag]; rfl)
    case isFalse hflag => exact (and_immMask w).trans (by rw [hop, if_neg hflag]; rfl)
  case h_5 hop =>
    split
    case isTrue hflag => exact (and_longMask w).trans (by rw [hop, if_pos hflag]; rfl)
    case isFalse hflag => exact (and_longMask w).trans (by rw [hop, if_neg hflag]; rfl)
  case h_16 =>
    have hlt := (opcodeField w).isLt
    simp only [imp_false] at *
    exact matches_decodeTrap (by omega)

/-- Settles O4: the decoded instruction's row matches, and a Word that matches another row decodes to an
instruction of that row. -/
theorem everyWordSelectsExactlyItsRow : Obligations.EveryWordSelectsExactlyItsRow := by
  refine fun w => ⟨matches_decode w, fun j hj h => ?_⟩
  rw [decode_of_matches hj h]
  exact ⟨(rowMask_withFieldsOf w j).symm, (rowMatch_withFieldsOf w j).symm⟩

/-! ## The bits an instruction reads (R94) -/

/-- Words that agree under the full mask are the same Word. -/
theorem eq_of_and_fullMask_eq (h : w &&& 0xFFFF = v &&& 0xFFFF) : w = v := by
  have hall : w &&& BitVec.allOnes 16 = v &&& BitVec.allOnes 16 := h
  rwa [BitVec.and_allOnes, BitVec.and_allOnes] at hall

/-- Words that agree on the bits a row reads have the same fields for it. -/
theorem withFieldsOf_eq_of_and_readMask_eq {i : Instr} (h : w &&& readMask i = v &&& readMask i) :
    i.withFieldsOf w = i.withFieldsOf v := by
  cases i
  all_goals simp only [readMask] at h
  case trapGetc | trapOut | trapPuts | trapIn | trapPutsp | trapHalt => rfl
  case addReg | andReg =>
    have hdr : drField w = drField v := regField_eq_of_and_eq h (by decide)
    have hsr1 : sr1Field w = sr1Field v := regField_eq_of_and_eq h (by decide)
    have hsr2 : sr2Field w = sr2Field v := regField_eq_of_and_eq h (by decide)
    simp only [Instr.withFieldsOf, hdr, hsr1, hsr2]
  case not =>
    have hdr : drField w = drField v := regField_eq_of_and_eq h (by decide)
    have hsr : sr1Field w = sr1Field v := regField_eq_of_and_eq h (by decide)
    simp only [Instr.withFieldsOf, hdr, hsr]
  case jmp | jsrr =>
    have hbase : sr1Field w = sr1Field v := regField_eq_of_and_eq h (by decide)
    simp only [Instr.withFieldsOf, hbase]
  all_goals rw [eq_of_and_fullMask_eq h]

/-- Words that agree on the bits the decoded instruction of one of them reads decode alike. -/
theorem decode_eq_of_and_readMask_eq
    (h : w &&& readMask (decode w) = v &&& readMask (decode w)) : decode v = decode w := by
  by_cases hi : ∀ high vect, decode w ≠ .trapUnknown high vect
  · have hmatches : v &&& rowMask (decode w) = rowMatch (decode w) :=
      (and_eq_of_and_eq h (readMask_and_rowMask _)).symm.trans (matches_decode w)
    calc decode v
        = (decode w).withFieldsOf v := decode_of_matches hi hmatches
      _ = (decode w).withFieldsOf w := (withFieldsOf_eq_of_and_readMask_eq h).symm
      _ = decode w := (decode_of_matches hi (matches_decode w)).symm
  · push Not at hi
    obtain ⟨high, vect, hunknown⟩ := hi
    rw [hunknown] at h
    rw [eq_of_and_fullMask_eq h]

/-- Settles O3: equal fields decode alike; the three rows that keep their whole Word only record it. -/
theorem ignoredBitsChangeNothing : Obligations.IgnoredBitsChangeNothing :=
  ⟨fun _ _ => decode_eq_of_and_readMask_eq, fun _ _ _ => ⟨_, _, rfl, rfl, rfl, rfl⟩,
    fun _ _ _ => ⟨_, _, rfl, rfl, rfl, rfl⟩, fun _ _ _ _ => ⟨_, _, rfl, rfl, rfl, rfl⟩⟩

end Sys2Proof
end

section
/-!
PROOF. The step of a RUNNING core (`40_execution_loop.md` R110), in the two forms that carry a statement
about `exec` to `step`: with the fetch as the `MemRead` it is, and with the plain fetch it is at every
address but KBD_STATUS (`20_memory.md` R53).
-/

namespace Sys2Proof.Machine

/-- Away from KBD_STATUS the fetch polls nothing, so a step executes the cell at `pc` (R53, R110). -/
theorem step_plain {s : State} (hrun : s.run = .running) (hpc : s.pc ≠ kbdStatus) :
    step s = exec (decode (s.mem.read s.pc.toNat)) (s.setPc (s.pc + 1)) := by
  rw [step_of_running hrun, State.fetch_plain hpc]

/-- Settles O8: the fetch is the `MemRead` at `pc` followed by the increment. -/
theorem stepRunsTheDecodedInstruction : Obligations.StepRunsTheDecodedInstruction :=
  fun _ hrun => step_of_running hrun

/-- Settles O9: the fetch is plain, and the cell's Word decodes to the named instruction. -/
theorem stepRunsTheCellAtPc : Obligations.StepRunsTheCellAtPc := by
  intro s i hrun hpc _ hdecode
  rw [step_plain hrun hpc, hdecode]
  rfl

end Sys2Proof.Machine
end

section
/-!
PROOF. BR (`41_branch.md` R120, R121): BR is one write of `pc` (`exec_br_eq`), whose value R23's table gives
(`tablePc_br`); the masks 000 and 111 are the two at which COND does not matter.
-/

namespace Sys2Proof.Machine

/-- Mask 000 tests no flag (R121). -/
theorem not_brCondition_zero (c : Cond) : ¬ BrCondition 0b000 c := by
  unfold BrCondition
  cases c <;> decide

/-- Mask 111 tests every flag, and COND is always one of them (R121, D2). -/
theorem brCondition_allOnes (c : Cond) : BrCondition 0b111 c := by
  unfold BrCondition
  cases c <;> decide

/-- Settles O33: a taken branch is the signed sum of `toNat_add_sext16`, one not taken the table's `pc`. -/
theorem branchMovesPcWhenTheConditionHolds : Obligations.BranchMovesPcWhenTheConditionHolds := by
  intro s nzp off
  obtain ⟨-, hfall⟩ := tablePc_br nzp off s
  refine ⟨_, exec_br_eq nzp off s, fun hc => ?_, hfall, rfl, ?_, ?_⟩
  · rw [if_pos ((brTaken_iff nzp s.cond).2 hc)]
    exact toNat_add_sext16 s.pc off (by decide) (by decide)
  · rintro rfl
    rw [hfall (not_brCondition_zero s.cond)]
    rfl
  · rintro rfl
    exact brCondition_allOnes s.cond

end Sys2Proof.Machine
end

section
/-!
PROOF. ADD, AND, NOT (`42_alu.md` R125 to R129).  Each is one write of the destination with `setcc`, so what
it leaves unchanged is one lemma, and an instruction adds only what its value is.
-/

namespace Sys2Proof.Machine

/-- A write of a register with `setcc` leaves the flags of the value (R26) and changes nothing else. -/
theorem State.setRegCC_flags_and_frame (s : State) (r : Reg) (v : Word) :
    (s.setRegCC r v).FlagsOf ((s.setRegCC r v).reg r) ∧ s.KeepsRegs (s.setRegCC r v) [r] ∧
      (s.setRegCC r v).pc = s.pc ∧ s.KeepsMem (s.setRegCC r v) ∧ s.KeepsConsole (s.setRegCC r v) ∧
      s.KeepsControl (s.setRegCC r v) := by
  refine ⟨?_, s.keepsRegs_setRegCC r v, rfl, fun _ => rfl, ⟨rfl, rfl⟩, rfl, rfl, rfl⟩
  rw [State.reg_setRegCC_same]
  exact s.flagsOf_setRegCC r v

/-- Settles O18: the register form is the library's sum of Words, the immediate form the signed sum of
`toNat_add_sext16`. -/
theorem addWritesTheSumAndFlags : Obligations.AddWritesTheSumAndFlags := by
  intro s dr sr1 sr2 imm
  refine ⟨⟨_, rfl, ?sum, s.setRegCC_flags_and_frame dr _⟩,
    ⟨_, rfl, ?signedSum, s.setRegCC_flags_and_frame dr _⟩⟩
  case sum => rw [State.reg_setRegCC_same, BitVec.toNat_add]
  case signedSum =>
    rw [State.reg_setRegCC_same]
    exact toNat_add_sext16 (s.reg sr1) imm (by decide) (by decide)

/-- Bit by bit, an and with a sign-extended imm5: bit 4 of the field stands for bits 15 to 4 (R128). -/
theorem getLsbD_and_sext16_imm5 (w : Word) (imm : BitVec 5) (k : Nat) :
    (w &&& sext16 imm).getLsbD k =
      (w.getLsbD k && (if k < 5 then imm.getLsbD k else imm.getLsbD 4)) := by
  rw [sext16_eq_signExtend imm (by decide) (by decide), BitVec.getLsbD_and, BitVec.getLsbD_signExtend,
    BitVec.msb_eq_getLsbD_last]
  by_cases hk : k < 16
  · simp [hk]
  · simp [BitVec.getLsbD_of_ge w k (by omega)]

/-- Settles O19: both forms are the library's `getLsbD` of an and, the immediate sign-extended. -/
theorem andWritesTheBitsAndFlags : Obligations.AndWritesTheBitsAndFlags := by
  intro s dr sr1 sr2 imm
  refine ⟨⟨_, rfl, fun k => ?bits, s.setRegCC_flags_and_frame dr _⟩,
    ⟨_, rfl, fun k => ?immBits, s.setRegCC_flags_and_frame dr _⟩⟩
  case bits => rw [State.reg_setRegCC_same, BitVec.getLsbD_and]
  case immBits => rw [State.reg_setRegCC_same, getLsbD_and_sext16_imm5]

/-- Settles O20: each of the 16 bits is the library's `getLsbD` of a complement. -/
theorem notWritesTheComplementAndFlags : Obligations.NotWritesTheComplementAndFlags := by
  intro s dr sr
  refine ⟨_, rfl, fun k hk => ?_, s.setRegCC_flags_and_frame dr _⟩
  rw [State.reg_setRegCC_same, BitVec.getLsbD_not, decide_eq_true hk, Bool.true_and]

end Sys2Proof.Machine
end

section
/-!
PROOF. LD, LDI, LDR, LEA (`43_loads.md` R135 to R138).  The three loads end with `State.loadTo`, whose rules
come first; LDI only runs it in the state and at the Word that a first `MemRead` answers.
-/

namespace Sys2Proof.Machine

/-! ## The end of every load -/

section
variable (s : State) (dr : Reg) (a : Word)

@[simp] theorem State.loadTo_pc : (s.loadTo dr a).pc = s.pc := s.memRead_pc a
@[simp] theorem State.loadTo_run : (s.loadTo dr a).run = s.run := s.memRead_run a
@[simp] theorem State.loadTo_mem : (s.loadTo dr a).mem = (s.memRead a).2.mem := rfl
@[simp] theorem State.loadTo_conIn : (s.loadTo dr a).conIn = (s.memRead a).2.conIn := rfl
@[simp] theorem State.loadTo_conOut : (s.loadTo dr a).conOut = s.conOut := s.memRead_conOut a
@[simp] theorem State.loadTo_diag : (s.loadTo dr a).diag = s.diag := s.memRead_diag a
@[simp] theorem State.loadTo_par : (s.loadTo dr a).par = s.par := s.memRead_par a

@[simp] theorem State.reg_loadTo_same : (s.loadTo dr a).reg dr = (s.memRead a).1 :=
  State.reg_setRegCC_same _ dr _

/-- A load sets COND from the Word it loads (R27). -/
theorem State.flagsOf_loadTo : (s.loadTo dr a).FlagsOf ((s.loadTo dr a).reg dr) :=
  (State.setRegCC_flags_and_frame _ dr _).1

theorem State.keepsRegs_loadTo : s.KeepsRegs (s.loadTo dr a) [dr] := fun r hr =>
  (State.keepsRegs_setRegCC _ dr _ r hr).trans (State.reg_congr (s.memRead_regs a) r)

theorem State.keepsControl_loadTo : s.KeepsControl (s.loadTo dr a) :=
  ⟨s.loadTo_run dr a, s.loadTo_diag dr a, s.loadTo_par dr a⟩

end

variable {s : State} {a : Word}

/-- A load from any cell but KBD_STATUS writes that cell to the destination and polls nothing (R53). -/
theorem State.loadTo_plain (ha : a ≠ kbdStatus) (dr : Reg) :
    (s.loadTo dr a).reg dr = s.mem.read a.toNat ∧ s.KeepsMem (s.loadTo dr a) ∧
      (s.loadTo dr a).conIn = s.conIn := by
  rw [State.loadTo, s.memRead_plain ha]
  exact ⟨s.reg_setRegCC_same dr _, fun _ => rfl, rfl⟩

/-- All that a load from one address does: the destination, COND, the keyboard, and the frame. -/
theorem State.loadTo_effect_and_frame (hm : s.mem.wf) (dr : Reg) (a : Word) :
    (s.loadTo dr a).reg dr = (s.memRead a).1 ∧ (s.loadTo dr a).FlagsOf ((s.loadTo dr a).reg dr) ∧
      s.KeepsRegs (s.loadTo dr a) [dr] ∧ (s.loadTo dr a).mem = (s.memRead a).2.mem ∧
      (s.loadTo dr a).conIn = (s.memRead a).2.conIn ∧
      (a ≠ 0xFE00 → (s.loadTo dr a).reg dr = s.mem.read a.toNat ∧ s.KeepsMem (s.loadTo dr a) ∧
        (s.loadTo dr a).conIn = s.conIn) ∧
      (∀ b, b ≠ 0xFE00 → b ≠ 0xFE02 → (s.loadTo dr a).mem.read b = s.mem.read b) ∧
      (s.loadTo dr a).pc = s.pc ∧ (s.loadTo dr a).conOut = s.conOut ∧
      s.KeepsControl (s.loadTo dr a) :=
  ⟨s.reg_loadTo_same dr a, s.flagsOf_loadTo dr a, s.keepsRegs_loadTo dr a, rfl, rfl,
    fun ha => State.loadTo_plain ha dr, fun _ => State.read_memRead_other hm a,
    s.loadTo_pc dr a, s.loadTo_conOut dr a, s.keepsControl_loadTo dr a⟩

/-! ## LD and LDR -/

/-- Settles O26: LD is a load from `pc` plus the offset. -/
theorem ldLoadsTheCell : Obligations.LdLoadsTheCell := fun s dr off hm =>
  ⟨s.loadTo dr (s.pcRel9 off), rfl, State.loadTo_effect_and_frame hm dr _⟩

/-- Settles O27: LDR is a load from the base, as it was before the load, plus the offset. -/
theorem ldrLoadsFromTheBase : Obligations.LdrLoadsFromTheBase := fun s dr base off hm =>
  ⟨s.loadTo dr (s.baseOff6 base off), rfl, State.loadTo_effect_and_frame hm dr _⟩

/-! ## LDI -/

/-- Settles O28: a load at the pointer, in the state `u` that the read of the pointer leaves; `u` differs from
`s` only in the keyboard's cells and the input queue. -/
theorem ldiLoadsThroughThePointer : Obligations.LdiLoadsThroughThePointer := by
  intro s dr off hm
  obtain ⟨-, hflags, hregs, -, -, -, hcells, -⟩ := State.loadTo_effect_and_frame
    (State.memRead_wf hm (s.pcRel9 off)) dr (s.memRead (s.pcRel9 off)).1
  refine ⟨_, rfl, ?loads, hflags, ?regs, ?plain, ?cells, by simp, by simp, ?control⟩
  case loads =>
    intro p u hread
    rw [hread]
    exact ⟨u.reg_loadTo_same dr p, rfl, rfl⟩
  case regs => exact fun r hr => (hregs r hr).trans (State.reg_congr (s.memRead_regs _) r)
  case plain =>
    intro ha hp
    rw [s.memRead_plain ha]
    exact State.loadTo_plain hp dr
  case cells =>
    exact fun b hstatus hdata =>
      (hcells b hstatus hdata).trans (State.read_memRead_other hm _ hstatus hdata)
  case control => simp [State.KeepsControl]

/-- A pointer read from KBD_STATUS is 0x0000 or the ready value, so it does not point at KBD_STATUS. -/
theorem State.memRead_status_fst_ne (hm : s.mem.wf) : (s.memRead kbdStatus).1 ≠ kbdStatus := by
  rcases State.memRead_status_fst hm with h | h <;> rw [h] <;> decide

/-- Settles O29: when the first read polls, the pointer it returns does not, so one of the reads is plain. -/
theorem ldiPollsAtMostOnce : Obligations.LdiPollsAtMostOnce := by
  intro s t dr off hm h
  cases h
  rw [State.loadTo_conIn, State.memRead_conIn, State.memRead_conIn]
  by_cases ha : s.pcRel9 off = kbdStatus
  · rw [ha, if_neg (State.memRead_status_fst_ne hm), if_pos rfl]
    exact .inr rfl
  · rw [if_neg ha]
    split
    · exact .inr rfl
    · exact .inl rfl

/-! ## LEA -/

/-- Settles O30: the address is the signed sum of `toNat_add_sext16`, and LEA only writes it with `setcc`. -/
theorem leaComputesTheAddress : Obligations.LeaComputesTheAddress := by
  intro s dr off
  obtain ⟨hflags, hregs, hpc, -, hconsole, hcontrol⟩ := s.setRegCC_flags_and_frame dr (s.pcRel9 off)
  refine ⟨_, rfl, ?_, hflags, hregs, hpc, rfl, hconsole, hcontrol⟩
  rw [State.reg_setRegCC_same]
  exact toNat_add_sext16 s.pc off (by decide) (by decide)

end Sys2Proof.Machine
end

section
/-!
PROOF. ST, STI, STR (`44_stores.md` R145 to R147).  Each is one `MemWrite`, so the written cell and all that it
leaves unchanged are one lemma; STI only runs it in the state and at the Word that a first `MemRead` answers.
-/

namespace Sys2Proof.Machine

/-- A `MemWrite` puts the Word into its cell and changes nothing else, at every address (R55). -/
theorem State.memWrite_cell_and_frame {s : State} (hm : s.mem.wf) (a v : Word) :
    (s.memWrite a v).mem.read a.toNat = v ∧ s.KeepsMemBut (s.memWrite a v) a ∧
      (s.memWrite a v).regs = s.regs ∧ (s.memWrite a v).pc = s.pc ∧ (s.memWrite a v).cond = s.cond ∧
      s.KeepsConsole (s.memWrite a v) ∧ s.KeepsControl (s.memWrite a v) := by
  obtain ⟨hcell, hothers, -⟩ := memWriteStoresOneCell s a v hm
  exact ⟨hcell, hothers, rfl, rfl, rfl, ⟨rfl, rfl⟩, rfl, rfl, rfl⟩

/-- Settles O31: ST and STR are a `MemWrite` of the source register at their effective address. -/
theorem storesWriteTheirCell : Obligations.StoresWriteTheirCell := fun s sr base off9 off6 hm =>
  ⟨⟨s.memWrite (s.pcRel9 off9) (s.reg sr), rfl, State.memWrite_cell_and_frame hm _ _⟩,
    ⟨s.memWrite (s.baseOff6 base off6) (s.reg sr), rfl, State.memWrite_cell_and_frame hm _ _⟩⟩

/-- Settles O32: a `MemWrite` at the pointer, in the state that the read of the pointer leaves; that state is
`s` itself when the pointer's cell is not KBD_STATUS. -/
theorem stiStoresThroughThePointer : Obligations.StiStoresThroughThePointer := by
  intro s sr off hm
  obtain ⟨hcell, hothers, hregs, hpc, hcond, ⟨hconIn, hconOut⟩, hrun, hdiag, hpar⟩ :=
    State.memWrite_cell_and_frame (State.memRead_wf hm (s.pcRel9 off)) (s.memRead (s.pcRel9 off)).1
      (s.reg sr)
  have keeps := State.KeepsCore.memRead s (s.pcRel9 off)
  refine ⟨_, rfl, ?pointer, ?plain, hregs.trans keeps.regs, hpc.trans keeps.pc, hcond.trans keeps.cond,
    hconOut.trans (s.memRead_conOut _), hrun.trans keeps.run, hdiag.trans keeps.diag,
    hpar.trans keeps.par⟩
  case pointer =>
    intro p u hread
    rw [hread] at hcell hothers hconIn ⊢
    exact ⟨hcell, hothers, hconIn⟩
  case plain =>
    intro ha
    rw [s.memRead_plain ha] at hothers hconIn ⊢
    exact ⟨hothers, hconIn⟩

end Sys2Proof.Machine
end

section
/-!
PROOF. JMP, JSR, JSRR (`45_jumps.md` R150 to R154).  JSR and JSRR both end as `s.link.setPc p`, so the link
and all that it leaves unchanged are said once; the two differ only in the target `p`.
-/

namespace Sys2Proof.Machine

section
variable (s : State)

@[simp] theorem State.reg_link_same : s.link.reg 7 = s.pc := s.reg_setReg_same 7 s.pc

@[simp] theorem State.reg_link_other {r : Reg} (h : r ≠ 7) : s.link.reg r = s.reg r :=
  s.reg_setReg_other s.pc h

/-- A jump with link changes R7 and `pc` and nothing else, COND neither (R152 to R154). -/
theorem State.link_setPc_frame (p : Word) :
    s.KeepsRegs (s.link.setPc p) [7] ∧ (s.link.setPc p).cond = s.cond ∧
      (s.link.setPc p).mem = s.mem ∧ s.KeepsConsole (s.link.setPc p) ∧
      s.KeepsControl (s.link.setPc p) :=
  ⟨fun _ hr => s.reg_link_other (List.ne_of_not_mem_cons hr), rfl, rfl, ⟨rfl, rfl⟩, rfl, rfl, rfl⟩

end

/-- Settles O34: JMP is the one write of `pc`, with no link. -/
theorem jumpGoesToTheRegister : Obligations.JumpGoesToTheRegister := fun _ _ => rfl

/-- Settles O35: the link leaves `pc` as it is, so the target is the signed sum of `toNat_add_sext16`. -/
theorem jsrLinksAndBranches : Obligations.JsrLinksAndBranches := fun s off =>
  ⟨s.link.setPc (s.link.pcRel11 off), rfl, s.reg_link_same,
    toNat_add_sext16 s.pc off (by decide) (by decide), s.link_setPc_frame _⟩

/-- Settles O36: the base is read in the linked state, where R7 already holds `pc` and every other register
what it held before. -/
theorem jsrrLinksBeforeItReadsTheBase : Obligations.JsrrLinksBeforeItReadsTheBase := by
  intro s base
  refine ⟨s.link.setPc (s.link.reg base), rfl, s.reg_link_same, ?fallsThrough, ?jumps,
    s.link_setPc_frame _⟩
  case fallsThrough =>
    rintro rfl
    exact s.reg_link_same
  case jumps => exact s.reg_link_other

end Sys2Proof.Machine
end

section
/-!
PROOF. The trap services GETC, IN, OUT and HALT (`46_trap.md` R162, R163, R166, R168).  GETC and IN both end
by writing the byte they took to R0 with `setcc`; what that leaves in R0 and COND is said once.
-/

namespace Sys2Proof.Machine

/-- A zero-extended byte is never negative (D16). -/
theorem condOf_zext16_ne_neg (c : Byte) : condOf (zext16 c) ≠ .neg := by
  have hmsb : (zext16 c).msb = false := by
    rw [zext16, BitVec.msb_setWidth, BitVec.getLsbD_of_ge c _ (by decide), Bool.and_false]
  rw [Ne, condOf_eq_neg_iff, hmsb]
  exact Bool.false_ne_true

/-- R0 and COND after a byte was taken: the byte zero-extended, and its flag (R162, R166). -/
theorem State.setRegCC_zext16 (u : State) (r : Reg) (c : Byte) :
    ((u.setRegCC r (zext16 c)).reg r).toNat = c.toNat ∧
      (u.setRegCC r (zext16 c)).FlagsOf ((u.setRegCC r (zext16 c)).reg r) ∧
      (u.setRegCC r (zext16 c)).cond ≠ .neg := by
  rw [State.reg_setRegCC_same, State.setRegCC_cond]
  exact ⟨toNat_zext16 c, u.flagsOf_setRegCC r _, condOf_zext16_ne_neg c⟩

/-- Settles O37: the byte is taken, then one write of R0 with `setcc`. -/
theorem getcReadsOneByte : Obligations.GetcReadsOneByte := by
  intro s c rest hc
  obtain ⟨hbyte, hflags, hcond⟩ := State.setRegCC_zext16 { s with conIn := rest } 0 c
  exact ⟨_, exec_trapGetc_of_cons hc, hbyte, hflags, hcond, rfl, s.keepsRegs_setRegCC 0 _, rfl, rfl, rfl,
    rfl, rfl, rfl⟩

/-- Settles O38: as GETC, with the prompt and the echo written in between. -/
theorem inPromptsReadsAndEchoes : Obligations.InPromptsReadsAndEchoes := by
  intro s c rest hc
  obtain ⟨hbyte, hflags, hcond⟩ := State.setRegCC_zext16
    ((({ s with conIn := rest } : State).conWrites s.par.inPrompt).conWrite c) 0 c
  exact ⟨_, exec_trapIn_of_cons hc, hbyte, hflags, hcond, rfl, rfl, s.keepsRegs_setRegCC 0 _, rfl, rfl,
    rfl, rfl, rfl⟩

/-- Settles O39: the low byte is R0 modulo 256, and the two events are appended one after the other. -/
theorem outWritesTheLowByte : Obligations.OutWritesTheLowByte := by
  intro s
  refine ⟨_, lowByte (s.reg 0), rfl, ?lowByte, ?events⟩
  case lowByte => rw [lowByte_eq_setWidth, BitVec.toNat_setWidth]
  case events => simp [State.conWrite, State.conFlush]

/-- Settles O44: HALT is the notice, the flush and the run state, with no other write. -/
theorem haltStopsTheCore : Obligations.HaltStopsTheCore := fun _ => rfl

end Sys2Proof.Machine
end

section
/-!
PROOF. PUTS and PUTSP (`46_trap.md` R164, R165, R167).  The reads that a string can still take (`readsLeft`)
go down with every nonzero Word, because a pass over KBD_STATUS takes a byte of input or ends the string.  So
R164's unbounded loop (`StringRun`) ends, and the model's bounded one (`stringLoop`) answers its result.
-/

namespace Sys2Proof.Machine

variable {bytes : Word → List Byte} {a : Word} {s u : State} {out : List Byte}

/-! ## The bound (R165) -/

/-- The most reads a string at `a` can take: those up to KBD_STATUS, then one round of the address space for
each byte of input. -/
def readsLeft (a : Word) (s : State) : Nat := 65536 * s.conIn.length + (kbdStatus - a).toNat + 1

theorem readsLeft_le (a : Word) (s : State) : readsLeft a s ≤ 65536 * (s.conIn.length + 1) := by
  have hdist := (kbdStatus - a).isLt
  unfold readsLeft
  omega

/-- A read of KBD_STATUS that answers a nonzero Word found a byte of input (R53). -/
theorem conIn_ne_nil_of_memRead_status_ne_zero (hm : s.mem.wf) (h : (s.memRead kbdStatus).1 ≠ 0) :
    s.conIn ≠ [] := fun hc =>
  h (congrArg Prod.fst (State.memRead_status_of_nil hm hc))

/-- A nonzero Word uses up one of the reads left. -/
theorem readsLeft_memRead (hm : s.mem.wf) (h : (s.memRead a).1 ≠ 0) :
    readsLeft (a + 1) (s.memRead a).2 + 1 = readsLeft a s := by
  unfold readsLeft
  by_cases ha : a = kbdStatus
  · subst ha
    obtain ⟨c, rest, hc⟩ := List.exists_cons_of_ne_nil (conIn_ne_nil_of_memRead_status_ne_zero hm h)
    have hround : (kbdStatus - (kbdStatus + 1)).toNat = 65535 := by decide
    rw [State.memRead_status_conIn hc, hc, hround, BitVec.sub_self, List.length_cons, BitVec.toNat_zero]
    omega
  · have hdist : (kbdStatus - (a + 1)).toNat + 1 = (kbdStatus - a).toNat := by bv_omega
    rw [s.memRead_plain ha]
    dsimp only
    omega

/-! ## The loop of R164 and the loop of the model -/

/-- Every string ends (R165). -/
theorem exists_stringRun (bytes : Word → List Byte) (a : Word) {s : State} (hm : s.mem.wf) :
    ∃ out u, StringRun bytes a s out u := by
  by_cases h : (s.memRead a).1 = 0
  · exact ⟨_, _, .stop a s h⟩
  · have hless := readsLeft_memRead hm h
    obtain ⟨out, u, hrun⟩ := exists_stringRun bytes (a + 1) (State.memRead_wf hm a)
    exact ⟨_, _, .more a s out u h hrun⟩
termination_by readsLeft a s
decreasing_by omega

/-- Output already written does not matter to a read. -/
theorem State.memRead_conWrites (s : State) (bs : List Byte) (a : Word) :
    (s.conWrites bs).memRead a = ((s.memRead a).1, (s.memRead a).2.conWrites bs) := by
  have hpoll : (s.conWrites bs).pollKeyboard = s.pollKeyboard.conWrites bs := by
    unfold State.pollKeyboard State.conRead
    rw [State.conWrites_conIn]
    cases s.conIn <;> rfl
  by_cases ha : a = kbdStatus
  · rw [ha, State.memRead_status, State.memRead_status, hpoll]
    rfl
  · rw [State.memRead_plain _ ha, State.memRead_plain _ ha]
    rfl

theorem State.conWrites_nil (s : State) : s.conWrites [] = s := by simp [State.conWrites]

theorem State.conWrites_conWrites (s : State) (bs cs : List Byte) :
    (s.conWrites bs).conWrites cs = s.conWrites (bs ++ cs) := by simp [State.conWrites]

/-- With as many reads as a string can take, the model's loop answers the result of R164's, behind whatever
output was there before. -/
theorem StringRun.stringLoop_conWrites (h : StringRun bytes a s out u) (hm : s.mem.wf)
    (bs : List Byte) {fuel : Nat} (hfuel : readsLeft a s ≤ fuel) :
    stringLoop bytes fuel a (s.conWrites bs) = u.conWrites (bs ++ out) := by
  induction h generalizing bs fuel with
  | stop a s zero =>
    obtain ⟨n, rfl⟩ := Nat.exists_eq_add_one.2 (Nat.zero_lt_of_lt hfuel)
    rw [stringLoop_succ, State.memRead_conWrites, if_pos zero, List.append_nil]
  | more a s out u nonzero rest ih =>
    obtain ⟨n, rfl⟩ := Nat.exists_eq_add_one.2 (Nat.zero_lt_of_lt hfuel)
    have hless := readsLeft_memRead hm nonzero
    rw [stringLoop_succ, State.memRead_conWrites, if_neg nonzero, State.conWrites_conWrites,
      ih (State.memRead_wf hm a) _ (by omega), List.append_assoc]

theorem StringRun.stringLoop_eq (h : StringRun bytes a s out u) (hm : s.mem.wf) {fuel : Nat}
    (hfuel : 65536 * (s.conIn.length + 1) ≤ fuel) : stringLoop bytes fuel a s = u.conWrites out := by
  have hloop := h.stringLoop_conWrites hm [] ((readsLeft_le a s).trans hfuel)
  rwa [State.conWrites_nil, List.nil_append] at hloop

/-- Settles O43: with either number of reads the loop answers the result of the one unbounded run. -/
theorem stringsEndWithinTheBound : Obligations.StringsEndWithinTheBound := by
  intro bytes s a n hm hn
  obtain ⟨out, u, hrun⟩ := exists_stringRun bytes a hm
  rw [hrun.stringLoop_eq hm hn, hrun.stringLoop_eq hm le_rfl]

/-! ## What a string leaves unchanged -/

/-- A `MemRead` changes only memory and `con_in`. -/
theorem State.memRead_snd_eq (s : State) (a : Word) :
    (s.memRead a).2 = { s with mem := (s.memRead a).2.mem, conIn := (s.memRead a).2.conIn } := by
  rcases s.memRead_snd a with h | ⟨-, h⟩ <;> rw [h]
  unfold State.pollKeyboard State.conRead
  cases s.conIn <;> rfl

/-- The reads of a string change only memory and `con_in`. -/
theorem StringRun.eq_with (h : StringRun bytes a s out u) :
    u = { s with mem := u.mem, conIn := u.conIn } := by
  induction h with
  | stop a s _ => exact s.memRead_snd_eq a
  | more a s out u _ _ ih => rwa [s.memRead_snd_eq a] at ih

/-- What PUTS and PUTSP do, for any rule of the bytes: the output of the unbounded run and a flush, with
memory and `con_in` as the reads leave them, and no cell changed but the two of the keyboard. -/
theorem stringLoop_conFlush_spec (bytes : Word → List Byte) (a : Word) {s : State} (hm : s.mem.wf) :
    ∃ out u, StringRun bytes a s out u ∧
      (stringLoop bytes (stringFuel s) a s).conFlush =
        { s with mem := u.mem, conIn := u.conIn, conOut := s.conOut ++ out.map .write ++ [.flush] } ∧
      ∀ b, b ≠ kbdStatus.toNat → b ≠ kbdData.toNat →
        (stringLoop bytes (stringFuel s) a s).conFlush.mem.read b = s.mem.read b := by
  obtain ⟨out, u, hrun⟩ := exists_stringRun bytes a hm
  refine ⟨out, u, hrun, ?_, fun b hstatus hdata => read_stringLoop_other bytes hstatus hdata _ a hm⟩
  calc (stringLoop bytes (stringFuel s) a s).conFlush
      = (u.conWrites out).conFlush := congrArg State.conFlush (hrun.stringLoop_eq hm le_rfl)
    _ = _ := congrArg (fun v => (v.conWrites out).conFlush) hrun.eq_with

theorem putsBytes_eq : putsBytes = fun w => [w.setWidth 8] := by
  funext w
  rw [putsBytes, lowByte_eq_setWidth]

theorem putspBytes_eq : putspBytes = fun w : Word => if (w >>> 8).setWidth 8 = 0#8 then [w.setWidth 8]
    else [w.setWidth 8, (w >>> 8).setWidth 8] := by
  funext w
  rw [putspBytes, lowByte_eq_setWidth, highByte_eq_shift]
  rfl

/-- Settles O40: the string loop with the byte rule of R164. -/
theorem putsRunsTheStringToItsEnd : Obligations.PutsRunsTheStringToItsEnd := by
  intro s hm
  obtain ⟨out, u, hrun, heq, hcells⟩ := stringLoop_conFlush_spec putsBytes (s.reg 0) hm
  exact ⟨out, u, _, putsBytes_eq ▸ hrun, rfl, heq, hcells⟩

/-- Settles O41: the string loop with the byte rule of R167. -/
theorem putspRunsTheStringToItsEnd : Obligations.PutspRunsTheStringToItsEnd := by
  intro s hm
  obtain ⟨out, u, hrun, heq, hcells⟩ := stringLoop_conFlush_spec putspBytes (s.reg 0) hm
  exact ⟨out, u, _, putspBytes_eq ▸ hrun, rfl, heq, hcells⟩

/-! ## A string that does not touch KBD_STATUS (R164) -/

/-- The nonzero Words `ws` lie from `a` on, then a zero Word, none of them at KBD_STATUS. -/
structure PlainString (m : Memory) (a : Word) (ws : List Word) : Prop where
  words : ∀ (k : Nat) (w : Word), ws[k]? = some w → w ≠ 0 ∧ a + BitVec.ofNat 16 k ≠ kbdStatus ∧
    m.read (a + BitVec.ofNat 16 k).toNat = w
  terminator_ne : a + BitVec.ofNat 16 ws.length ≠ kbdStatus
  terminator_zero : m.read (a + BitVec.ofNat 16 ws.length).toNat = 0

namespace PlainString

variable {m : Memory} {w : Word} {ws : List Word}

theorem nil (h : PlainString m a []) : a ≠ kbdStatus ∧ m.read a.toNat = 0 := by
  simpa using And.intro h.terminator_ne h.terminator_zero

theorem head (h : PlainString m a (w :: ws)) : w ≠ 0 ∧ a ≠ kbdStatus ∧ m.read a.toNat = w := by
  simpa using h.words 0 w rfl

theorem tail (h : PlainString m a (w :: ws)) : PlainString m (a + 1) ws := by
  have hshift (k : Nat) : a + BitVec.ofNat 16 (k + 1) = a + 1 + BitVec.ofNat 16 k := by bv_omega
  refine ⟨fun k v hk => ?words, ?terminator_ne, ?terminator_zero⟩
  case words => exact hshift k ▸ h.words (k + 1) v hk
  case terminator_ne => exact hshift ws.length ▸ h.terminator_ne
  case terminator_zero => exact hshift ws.length ▸ h.terminator_zero

/-- It ends before it has gone round the address space, since it would pass KBD_STATUS. -/
theorem length_lt (h : PlainString m a ws) : ws.length < 65536 := by
  have hdist := (kbdStatus - a).isLt
  have hat : a + BitVec.ofNat 16 (kbdStatus - a).toNat = kbdStatus := by
    rw [BitVec.ofNat_toNat, BitVec.setWidth_eq, BitVec.add_comm, BitVec.sub_add_cancel]
  by_contra hlong
  have hlt : (kbdStatus - a).toNat < ws.length := by omega
  obtain ⟨-, hne, -⟩ := h.words _ _ (List.getElem?_eq_getElem hlt)
  exact hne hat

/-- The loop reads it and writes its bytes. -/
theorem stringLoop_eq (h : PlainString s.mem a ws) (bytes : Word → List Byte) {fuel : Nat}
    (hfuel : ws.length < fuel) : stringLoop bytes fuel a s = s.conWrites (ws.flatMap bytes) := by
  induction ws generalizing a s fuel with
  | nil =>
    obtain ⟨n, rfl⟩ := Nat.exists_eq_add_one.2 (Nat.zero_lt_of_lt hfuel)
    obtain ⟨hne, hzero⟩ := h.nil
    rw [stringLoop_succ, s.memRead_plain hne, if_pos hzero, List.flatMap_nil, State.conWrites_nil]
  | cons w ws ih =>
    obtain ⟨n, rfl⟩ := Nat.exists_eq_add_one.2 (Nat.zero_lt_of_lt hfuel)
    obtain ⟨hnonzero, hne, hread⟩ := h.head
    rw [stringLoop_succ, s.memRead_plain hne, hread, if_neg hnonzero,
      ih (s := s.conWrites _) h.tail (Nat.lt_of_succ_lt_succ hfuel), State.conWrites_conWrites,
      List.flatMap_cons]

end PlainString

/-- Settles O42: the string is shorter than the address space, so the loop has the reads it needs. -/
theorem putsWritesAPlainString : Obligations.PutsWritesAPlainString := by
  intro s ws hwords hend hzero
  have hstr : PlainString s.mem (s.reg 0) ws := ⟨hwords, hend, hzero⟩
  have hfuel : ws.length < stringFuel s :=
    hstr.length_lt.trans_le (Nat.le_mul_of_pos_right _ (Nat.succ_pos _))
  have hbytes : (ws.flatMap putsBytes).map ConEvent.write = ws.map fun w => .write (w.setWidth 8) := by
    rw [putsBytes_eq, ← List.map_eq_flatMap, List.map_map]
    rfl
  calc exec .trapPuts s
      = .next (stringLoop putsBytes (stringFuel s) (s.reg 0) s).conFlush := rfl
    _ = .next (s.conWrites (ws.flatMap putsBytes)).conFlush := by rw [hstr.stringLoop_eq _ hfuel]
    _ = _ := by rw [← hbytes]; rfl

end Sys2Proof.Machine
end

section
/-!
PROOF. The encoder against the decoder (`30_encoding.md` R84 to R95).  A field of the Word that `encode`
writes reads back as the operand it was written from (`withFieldsOf_encode`), and the Word lies in its
instruction's row, so `decode` gives the instruction back.  The other way round, the bits that an
instruction reads are those of its row and of its fields (`and_readMask_eq`), and `encode (decode w)` has
the row and the fields of `w`.
-/

namespace Sys2Proof

variable {w v m p : Word} {high : BitVec 4} {vect : BitVec 8}

/-! ## The fields of an encoded Word -/

/-- A placed field reads back at its place. -/
theorem extractLsb'_fieldAt_same {n : Nat} (f : BitVec n) {lo : Nat} (h : lo + n ≤ 16) :
    (fieldAt f lo).extractLsb' lo n = f := by
  apply BitVec.eq_of_getLsbD_eq
  intro j hj
  rw [BitVec.getLsbD_extractLsb', getLsbD_fieldAt, Nat.add_sub_cancel_left]
  simp [hj, show lo + j < 16 by omega]

/-- A field placed elsewhere leaves nothing at the place read. -/
theorem extractLsb'_fieldAt_other {n k : Nat} (f : BitVec n) {lo place : Nat}
    (h : lo + k ≤ place ∨ place + n ≤ lo) : (fieldAt f place).extractLsb' lo k = 0 := by
  apply BitVec.eq_of_getLsbD_eq
  intro j hj
  rw [BitVec.getLsbD_extractLsb', getLsbD_fieldAt]
  obtain hbelow | habove := h
  · simp [show lo + j < place by omega]
  · simp [BitVec.getLsbD_of_ge f (lo + j - place) (by omega)]

/-- The operands are the fields of the encoded Word (R93, R99): of the fixed bits and the fields that
`encode` joins, each place reads the one field that lies there. -/
theorem withFieldsOf_encode (i : Instr) : i.withFieldsOf (encode i) = i := by
  cases i
  case trapGetc | trapOut | trapPuts | trapIn | trapPutsp | trapHalt => rfl
  all_goals
    simp (disch := decide) [Instr.withFieldsOf, encode, regAt, drField, sr1Field, sr2Field, nzpField,
      imm5Field, off6Field, off9Field, off11Field, vectField, BitVec.extractLsb'_or,
      extractLsb'_fieldAt_same, extractLsb'_fieldAt_other]

/-- The Word of a well-formed instruction matches the instruction's row (R92, R95). -/
theorem encode_matches {i : Instr} (h : i.wf = true) : encode i &&& rowMask i = rowMatch i := by
  cases i with
  | br => exact Laws.EncodedRow.br _ _ h
  | addReg => exact Laws.EncodedRow.addReg _ _ _ h
  | addImm => exact Laws.EncodedRow.addImm _ _ _ h
  | ld => exact Laws.EncodedRow.ld _ _ h
  | st => exact Laws.EncodedRow.st _ _ h
  | jsr => exact Laws.EncodedRow.jsr _ h
  | jsrr => exact Laws.EncodedRow.jsrr _ h
  | andReg => exact Laws.EncodedRow.andReg _ _ _ h
  | andImm => exact Laws.EncodedRow.andImm _ _ _ h
  | ldr => exact Laws.EncodedRow.ldr _ _ _ h
  | str => exact Laws.EncodedRow.str _ _ _ h
  | rti => exact Laws.EncodedRow.rti _ h
  | not => exact Laws.EncodedRow.not _ _ h
  | ldi => exact Laws.EncodedRow.ldi _ _ h
  | sti => exact Laws.EncodedRow.sti _ _ h
  | jmp => exact Laws.EncodedRow.jmp _ h
  | res => exact Laws.EncodedRow.res _ h
  | lea => exact Laws.EncodedRow.lea _ _ h
  | trapUnknown => exact Laws.EncodedRow.trapUnknown _ _ h
  | trapGetc | trapOut | trapPuts | trapIn | trapPutsp | trapHalt => rfl

/-! ## The fallback row of TRAP (R95, R169) -/

theorem mem_serviceVectors_iff : vect ∈ serviceVectors ↔ 0x20 ≤ vect.toNat ∧ vect.toNat ≤ 0x25 := by
  simp only [serviceVectors, List.mem_cons, List.not_mem_nil, or_false, ← BitVec.toNat_inj,
    BitVec.ofNat_eq_ofNat, BitVec.toNat_ofNat]
  omega

theorem decode_of_trap_opcode (hop : opcodeField w = 0xF) : decode w = decodeTrap w := by
  rw [decode, hop]
  rfl

/-- A TRAP whose vector names no service decodes to the fallback row. -/
theorem decodeTrap_of_not_mem (h : vectField w ∉ serviceVectors) :
    decodeTrap w = .trapUnknown (w.extractLsb' 8 4) (vectField w) := by
  rw [mem_serviceVectors_iff] at h
  rw [decodeTrap]
  split
  case h_7 => rfl
  all_goals omega

/-- A TRAP whose vector names a service does not. -/
theorem decodeTrap_ne_trapUnknown (h : vectField w ∈ serviceVectors) :
    decodeTrap w ≠ .trapUnknown high vect := by
  rw [mem_serviceVectors_iff] at h
  rw [decodeTrap]
  split
  case h_7 =>
    simp only [imp_false] at *
    omega
  all_goals exact nofun

/-- A Word with the row of an unknown TRAP has opcode 0xF. -/
theorem opcodeField_of_matches_trapUnknown
    (h : w &&& rowMask (.trapUnknown high vect) = rowMatch (.trapUnknown high vect)) :
    opcodeField w = 0xF := by
  rw [opcodeField_of_matches h, rowMatch]
  decide

/-- Only a TRAP whose vector names no service decodes to the fallback row, with its fields. -/
theorem decode_eq_trapUnknown (h : decode w = .trapUnknown high vect) :
    high = w.extractLsb' 8 4 ∧ vect = vectField w ∧ vectField w ∉ serviceVectors := by
  have hop := opcodeField_of_matches_trapUnknown (h ▸ matches_decode w)
  rw [decode_of_trap_opcode hop] at h
  have hvect : vectField w ∉ serviceVectors := fun hmem => decodeTrap_ne_trapUnknown hmem h
  obtain ⟨rfl, rfl⟩ := Instr.trapUnknown.inj ((decodeTrap_of_not_mem hvect).symm.trans h)
  exact ⟨rfl, rfl, hvect⟩

/-! ## Round trips -/

/-- Settles O1: the Word's row selects the instruction's row, and the operands are the Word's fields. -/
theorem decodeOfEncodeIsTheInstruction : Obligations.DecodeOfEncodeIsTheInstruction := by
  intro i hwf
  have hrow := encode_matches hwf
  have hfields := withFieldsOf_encode i
  by_cases hi : ∀ high vect, i ≠ .trapUnknown high vect
  · exact (decode_of_matches hi hrow).trans hfields
  · push Not at hi
    obtain ⟨high, vect, rfl⟩ := hi
    have hop := opcodeField_of_matches_trapUnknown hrow
    have hvect : vectField (encode (.trapUnknown high vect)) ∉ serviceVectors := by
      rw [(Instr.trapUnknown.inj hfields).2]
      simpa [Instr.wf] using hwf
    exact (decode_of_trap_opcode hop).trans ((decodeTrap_of_not_mem hvect).trans hfields)

/-! ## The bits that an instruction reads (R94) -/

/-- Words that agree under a mask and in a field agree under the mask with the field added. -/
theorem and_eq_of_field_eq (h : w &&& m = v &&& m) {lo n : Nat}
    (hfield : w.extractLsb' lo n = v.extractLsb' lo n)
    (hp : m ||| fieldAt (BitVec.allOnes n) lo = p) : w &&& p = v &&& p := by
  rw [← hp, BitVec.and_or_distrib_left, BitVec.and_or_distrib_left, h, and_fieldAt_allOnes,
    and_fieldAt_allOnes, hfield]

/-- The same for a field that is read as a register number (R83). -/
theorem and_eq_of_regField_eq (h : w &&& m = v &&& m) {lo : Nat}
    (hreg : (w.extractLsb' lo 3).toFin = (v.extractLsb' lo 3).toFin)
    (hp : m ||| fieldAt (BitVec.allOnes 3) lo = p) : w &&& p = v &&& p :=
  and_eq_of_field_eq h (BitVec.toFin_inj.1 hreg) hp

/-- Words with the same row bits and the same fields agree on all the bits that the row reads. -/
theorem and_readMask_eq {i : Instr} (hrow : w &&& rowMask i = v &&& rowMask i)
    (hfields : i.withFieldsOf w = i.withFieldsOf v) : w &&& readMask i = v &&& readMask i := by
  cases i
  all_goals simp only [rowMask, readMask] at hrow ⊢
  case trapGetc | trapOut | trapPuts | trapIn | trapPutsp | trapHalt => exact hrow
  case br =>
    injection hfields with hnzp hoff
    exact and_eq_of_field_eq (and_eq_of_field_eq hrow hnzp rfl) hoff (by decide)
  case addReg | andReg =>
    injection hfields with hdr hsr1 hsr2
    exact and_eq_of_regField_eq (and_eq_of_regField_eq (and_eq_of_regField_eq hrow hdr rfl) hsr1 rfl)
      hsr2 (by decide)
  case addImm | andImm =>
    injection hfields with hdr hsr1 himm
    exact and_eq_of_field_eq (and_eq_of_regField_eq (and_eq_of_regField_eq hrow hdr rfl) hsr1 rfl)
      himm (by decide)
  case ldr | str =>
    injection hfields with hdr hbase hoff
    exact and_eq_of_field_eq (and_eq_of_regField_eq (and_eq_of_regField_eq hrow hdr rfl) hbase rfl)
      hoff (by decide)
  case ld | st | ldi | sti | lea =>
    injection hfields with hdr hoff
    exact and_eq_of_field_eq (and_eq_of_regField_eq hrow hdr rfl) hoff (by decide)
  case not =>
    injection hfields with hdr hsr
    exact and_eq_of_regField_eq (and_eq_of_regField_eq hrow hdr rfl) hsr (by decide)
  case jmp | jsrr =>
    injection hfields with hbase
    exact and_eq_of_regField_eq hrow hbase (by decide)
  case jsr | rti | res =>
    injection hfields with hfield
    exact and_eq_of_field_eq hrow hfield (by decide)
  case trapUnknown =>
    injection hfields with hhigh hvect
    exact and_eq_of_field_eq (and_eq_of_field_eq hrow hhigh rfl) hvect (by decide)

/-- The operands of a decoded instruction are the fields of the Word (R95). -/
theorem decode_eq_withFieldsOf (w : Word) : decode w = (decode w).withFieldsOf w := by
  by_cases hi : ∀ high vect, decode w ≠ .trapUnknown high vect
  · exact decode_of_matches hi (matches_decode w)
  · push Not at hi
    obtain ⟨high, vect, hunknown⟩ := hi
    obtain ⟨rfl, rfl, -⟩ := decode_eq_trapUnknown hunknown
    rw [hunknown]
    rfl

/-- No Word decodes to an ill-formed instruction (R169). -/
theorem decode_wf (w : Word) : (decode w).wf = true := by
  cases hi : decode w
  case trapUnknown high vect =>
    obtain ⟨-, rfl, hvect⟩ := decode_eq_trapUnknown hi
    simpa [Instr.wf] using hvect
  all_goals rfl

/-- Encoding a decoded Word gives back every bit that its instruction reads. -/
theorem encode_decode_and_readMask (w : Word) :
    encode (decode w) &&& readMask (decode w) = w &&& readMask (decode w) :=
  and_readMask_eq ((encode_matches (decode_wf w)).trans (matches_decode w).symm)
    ((withFieldsOf_encode (decode w)).trans (decode_eq_withFieldsOf w))

/-- Settles O2: the two Words have the same row and the same fields. -/
theorem encodeOfDecodeKeepsTheReadBits : Obligations.EncodeOfDecodeKeepsTheReadBits :=
  fun w => ⟨decode_wf w, encode_decode_and_readMask w⟩

/-- Settles O5: the decoder computes on the ten Words. -/
theorem writtenOutWordsDecode : Obligations.WrittenOutWordsDecode := by
  unfold Obligations.WrittenOutWordsDecode
  decide

end Sys2Proof
end

section
/-!
PROOF. What an instruction answers and what it leaves in `con_out` and `diag` (`10_state.md` R33,
`46_trap.md` R169, `47_unimplemented.md` R180 to R182, `60_exceptions.md` R185, R198).
-/

namespace Sys2Proof.Machine

variable {i : Instr} {s t : State}

/-! ## Every instruction answers (R185) -/

theorem exists_exec_next (i : Instr) (s : State) : ∃ t, exec i s = .next t := by
  have hinput (hi : i = .trapGetc ∨ i = .trapIn) : ∃ t, exec i s = .next t := by
    rcases hc : s.conIn with _ | ⟨c, rest⟩
    · exact ⟨_, exec_input_of_nil hi hc⟩
    · obtain ⟨u, hu, -⟩ := exec_input_of_cons hi hc
      exact ⟨_, hu⟩
  cases i with
  | trapGetc => exact hinput (.inl rfl)
  | trapIn => exact hinput (.inr rfl)
  | _ => exact ⟨_, rfl⟩

/-- Settles O11: a RUNNING core's instruction answers, and a HALTED core answers itself. -/
theorem everyStepAnswersANextState : Obligations.EveryStepAnswersANextState := by
  intro s
  rcases hrun : s.run with _ | _
  · rw [step_of_running hrun]
    exact exists_exec_next _ _
  · exact ⟨s, step_of_halted hrun⟩

/-! ## The traces, instruction by instruction -/

/-- The instructions that the hardware does not implement (R180, R181, R169). -/
def Unimplemented (i : Instr) : Prop :=
  (∃ low, i = .rti low) ∨ (∃ low, i = .res low) ∨ (∃ high vect, i = .trapUnknown high vect)

/-- An unimplemented instruction records its Word and does nothing else (R182). -/
theorem exec_of_unimplemented (h : Unimplemented i) (s : State) :
    exec i s = .next (s.unimplemented (encode i)) := by
  obtain ⟨low, rfl⟩ | ⟨low, rfl⟩ | ⟨high, vect, rfl⟩ := h <;> rfl

/-- It reads every bit of its Word. -/
theorem readMask_of_unimplemented (h : Unimplemented i) : readMask i = 0xFFFF := by
  obtain ⟨low, rfl⟩ | ⟨low, rfl⟩ | ⟨high, vect, rfl⟩ := h <;> rfl

/-- `con_out` grows by the output services alone (R198), `diag` by the unimplemented instructions alone. -/
theorem exec_traces (h : exec i s = .next t) :
    (t.conOut = s.conOut ∨ Outputs i) ∧ (t.diag = s.diag ∨ Unimplemented i) := by
  cases i with
  | rti | res | trapUnknown =>
    cases h
    exact ⟨.inl rfl, .inr (by simp [Unimplemented])⟩
  | trapOut | trapHalt =>
    cases h
    exact ⟨.inr (by simp [Outputs]), .inl rfl⟩
  | trapPuts | trapPutsp =>
    cases h
    exact ⟨.inr (by simp [Outputs]), .inl (stringLoop_diag _ _ _ s)⟩
  | trapIn =>
    refine ⟨.inr (by simp [Outputs]), .inl ?_⟩
    rcases hc : s.conIn with _ | ⟨c, rest⟩
    · cases (exec_input_of_nil (.inr rfl) hc).symm.trans h
      rfl
    · cases (exec_trapIn_of_cons hc).symm.trans h
      rfl
  | trapGetc =>
    rcases hc : s.conIn with _ | ⟨c, rest⟩
    · cases (exec_input_of_nil (.inl rfl) hc).symm.trans h
      exact ⟨.inl rfl, .inl rfl⟩
    · cases (exec_trapGetc_of_cons hc).symm.trans h
      exact ⟨.inl rfl, .inl rfl⟩
  | ld | ldr =>
    cases h
    exact ⟨.inl (s.loadTo_conOut _ _), .inl (s.loadTo_diag _ _)⟩
  | ldi =>
    cases h
    exact ⟨.inl (by simp), .inl (by simp)⟩
  | sti =>
    cases h
    exact ⟨.inl (s.memRead_conOut _), .inl (s.memRead_diag _)⟩
  | br =>
    cases (exec_br_eq _ _ s).symm.trans h
    exact ⟨.inl rfl, .inl rfl⟩
  | addReg | addImm | andReg | andImm | not | lea | jmp | jsr | jsrr | st | str =>
    cases h
    exact ⟨.inl rfl, .inl rfl⟩

/-- Settles O56: neither the fetch nor any other instruction writes to the console. -/
theorem outputComesOnlyFromTheTrapServices : Obligations.OutputComesOnlyFromTheTrapServices := by
  intro s t h hne
  rcases hrun : s.run with _ | _
  · rw [step_of_running hrun] at h
    obtain ⟨hout | houtputs, -⟩ := exec_traces h
    · exact absurd (hout.trans s.fetch_conOut) hne
    · exact ⟨rfl, houtputs⟩
  · cases (step_of_halted hrun).symm.trans h
    exact absurd rfl hne

/-! ## The diagnostic event -/

theorem fieldAt_zero {n : Nat} (f : BitVec n) : fieldAt f 0 = f.setWidth 16 := BitVec.shiftLeft_zero _

/-- Settles O45: the recorded Word is the opcode with the instruction's fields in their places. -/
theorem unimplementedInstructionsAreNoOps : Obligations.UnimplementedInstructionsAreNoOps := by
  intro s low high vect
  rw [← fieldAt_zero low, ← fieldAt_zero vect]
  exact ⟨rfl, rfl, rfl⟩

/-- An unimplemented instruction encodes to the Word it was decoded from. -/
theorem encode_decode_of_unimplemented {w : Word} (h : Unimplemented (decode w)) :
    encode (decode w) = w := by
  have hbits := encode_decode_and_readMask w
  rw [readMask_of_unimplemented h] at hbits
  exact eq_of_and_fullMask_eq hbits

/-- Settles O46: the recorded encoding is the fetched Word, and the fetch itself records nothing. -/
theorem diagnosticRecordsTheFetchedWord : Obligations.DiagnosticRecordsTheFetchedWord := by
  intro s t hrun h
  rw [step_of_running hrun] at h
  refine ⟨fun (hi : Unimplemented (decode s.fetch.1)) => ?_, fun hne => ?_⟩
  · cases (exec_of_unimplemented hi s.fetch.2).symm.trans h
    rw [State.unimplemented_diag, encode_decode_of_unimplemented hi, State.fetch_diag]
  · obtain ⟨-, hdiag | hi⟩ := exec_traces h
    · exact absurd (hdiag.trans s.fetch_diag) hne
    · exact hi

end Sys2Proof.Machine
end

section
/-!
PROOF. The image loader and start-up (`70_reset_and_hazards.md` R211, R217 to R219).  Each Word of an image
is written to one cell or dropped, and which it is depends only on the policy and the Word's place
(`cellOf`); so one pair of lemmas about `placeWords` says for both policies what the loaded memory reads.
-/

namespace Sys2Proof.Machine

variable {policy : Config.ImageOverflow} {m m' : Memory} {w : Word} {ws : List Word} {k a : Nat}

/-! ## The bytes of an image (R217) -/

/-- Two bytes as a Word, the first the high one. -/
theorem toNat_append_bytes (hi lo : Byte) : (hi ++ lo : Word).toNat = hi.toNat * 256 + lo.toNat := by
  have hlo : lo.toNat < 2 ^ 8 := lo.isLt
  rw [BitVec.toNat_append, ← Nat.shiftLeft_add_eq_or_of_lt hlo, Nat.shiftLeft_eq]

/-- Fewer than two bytes are no Word. -/
theorem length_lt_two_of_ne_cons_cons {data : List Byte}
    (h : ∀ hi lo rest, data = hi :: lo :: rest → False) : data.length < 2 := by
  match data with
  | [] | [_] => simp
  | hi :: lo :: rest => exact (h hi lo rest rfl).elim

theorem length_imageWords (data : List Byte) : (imageWords data).length = data.length / 2 := by
  induction data using imageWords.induct with
  | case1 hi lo rest ih =>
    rw [imageWords, List.length_cons, ih, List.length_cons, List.length_cons]
    omega
  | case2 data hshort =>
    have hlen := length_lt_two_of_ne_cons_cons hshort
    rw [imageWords, List.length_nil]
    · omega
    · exact hshort

/-- The Word at an index is made of the bytes at twice the index and after it. -/

theorem getElem?_imageWords {data : List Byte} {hi lo : Byte} (hhi : data[2 * k]? = some hi)
    (hlo : data[2 * k + 1]? = some lo) : (imageWords data)[k]? = some (hi ++ lo) := by
  induction data using imageWords.induct generalizing k with
  | case1 b c rest ih =>
    cases k with
    | zero => simp_all [imageWords]
    | succ k => exact ih hhi hlo
  | case2 data hshort =>
    have hlen := length_lt_two_of_ne_cons_cons hshort
    obtain ⟨hlt, -⟩ := List.getElem?_eq_some_iff.1 hlo
    omega

/-! ## Where a Word of an image goes (R218) -/

/-- The cell that the Word at place `k` (origin plus index, not reduced) is written to; none when it is
dropped. -/
def cellOf (policy : Config.ImageOverflow) (k : Nat) : Option Nat :=
  match policy with
  | .truncate => if k < Config.memWords then some k else none
  | .wrap => some (k % Config.memWords)

theorem cellOf_truncate_eq_some : cellOf .truncate k = some a ↔ k = a ∧ a < 65536 := by
  change (if k < 65536 then some k else none) = some a ↔ _
  rw [Option.ite_none_right_eq_some, Option.some.injEq]
  omega

theorem cellOf_lt (h : cellOf policy k = some a) : a < Config.memWords := by
  cases policy with
  | truncate => exact (cellOf_truncate_eq_some.1 h).2
  | wrap =>
    cases h
    exact Nat.mod_lt k (by decide)

/-- A Word is written to its cell, or dropped when it has none. -/
theorem placeWord_eq (policy : Config.ImageOverflow) (m : Memory) (k : Nat) (w : Word) :
    placeWord policy m k w = (cellOf policy k).elim m fun a => m.write a w := by
  unfold placeWord cellOf
  cases policy with
  | truncate => split <;> rfl
  | wrap =>
    split
    · rename_i hk
      rw [Nat.mod_eq_of_lt hk]
      rfl
    · rfl

theorem placeWord_wf (h : m.wf) : (placeWord policy m k w).wf := by
  rw [placeWord_eq]
  rcases hcell : cellOf policy k with _ | a
  · exact h
  · exact Memory.write_wf h (cellOf_lt hcell) w

theorem read_placeWord (h : m.wf) :
    (placeWord policy m k w).read a = if cellOf policy k = some a then w else m.read a := by
  rw [placeWord_eq]
  rcases hcell : cellOf policy k with _ | b
  · simp
  · simp [Memory.read_write h.1, eq_comm]

/-! ## What a memory holds after an image -/

theorem placeWords_wf (h : m.wf) : (placeWords policy k ws m).wf := by
  induction ws generalizing k m with
  | nil => exact h
  | cons w ws ih => exact ih (placeWord_wf h)

/-- A cell that no Word of the image goes to keeps its content. -/
theorem read_placeWords_other (h : m.wf)
    (hcell : ∀ j, j < ws.length → cellOf policy (k + j) ≠ some a) :
    (placeWords policy k ws m).read a = m.read a := by
  induction ws generalizing k m with
  | nil => rfl
  | cons w ws ih =>
    have hrest (j : Nat) (hj : j < ws.length) : cellOf policy (k + 1 + j) ≠ some a := by
      rw [Nat.add_right_comm]
      exact hcell (j + 1) (by simpa using hj)
    calc (placeWords policy (k + 1) ws (placeWord policy m k w)).read a
        = (placeWord policy m k w).read a := ih (placeWord_wf h) hrest
      _ = m.read a := (read_placeWord h).trans (if_neg (hcell 0 (by simp)))

/-- A cell holds the last Word of the image that goes to it. -/
theorem read_placeWords_last (h : m.wf) {j : Nat} (hw : ws[j]? = some w)
    (hcell : cellOf policy (k + j) = some a)
    (hlast : ∀ l, j < l → l < ws.length → cellOf policy (k + l) ≠ some a) :
    (placeWords policy k ws m).read a = w := by
  induction ws generalizing k m j with
  | nil => simp at hw
  | cons v ws ih =>
    have hrest (l : Nat) (hj : j ≤ l) (hl : l < ws.length) : cellOf policy (k + 1 + l) ≠ some a := by
      rw [Nat.add_right_comm]
      exact hlast (l + 1) (by omega) (by simpa using hl)
    cases j with
    | zero =>
      obtain rfl : v = w := by simpa using hw
      calc (placeWords policy (k + 1) ws (placeWord policy m k v)).read a
          = (placeWord policy m k v).read a :=
            read_placeWords_other (placeWord_wf h) fun l => hrest l (Nat.zero_le l)
        _ = v := (read_placeWord h).trans (if_pos hcell)
    | succ j =>
      refine ih (placeWord_wf h) (j := j) (by simpa using hw) ?_ fun l hjl => hrest l hjl
      rwa [Nat.add_right_comm]

/-! ## Loading an image -/

theorem loadImage_cons_cons (policy : Config.ImageOverflow) (m : Memory) (hi lo : Byte)
    (data : List Byte) : loadImage policy m (hi :: lo :: data) =
      some (placeWords policy (hi.toNat * 256 + lo.toNat) (imageWords data) m) := by
  rw [← toNat_append_bytes]
  rfl

/-- Settles O15: under `truncate` a Word's cell is its place, so no two Words share one. -/
theorem imageWordsLandAtTheOrigin : Obligations.ImageWordsLandAtTheOrigin := by
  intro m hi lo data hm
  refine ⟨_, loadImage_cons_cons _ _ _ _ _, placeWords_wf hm, fun k b c hb hc hk => ?_, fun x hx => ?_⟩
  · rw [← toNat_append_bytes b c, read_placeWords_last hm (getElem?_imageWords hb hc)
      (cellOf_truncate_eq_some.2 ⟨rfl, by omega⟩)]
    intro l hkl _ hcell
    have := (cellOf_truncate_eq_some.1 hcell).1
    omega
  · refine read_placeWords_other hm fun j hj hcell => ?_
    rw [length_imageWords] at hj
    have := (cellOf_truncate_eq_some.1 hcell).1
    omega

/-- Settles O16: fewer than 65536 places on, no later Word of the image wraps to the same cell. -/
theorem oversizedImageWraps : Obligations.OversizedImageWraps := by
  intro m hi lo data hm hlen
  refine ⟨_, loadImage_cons_cons _ _ _ _ _, placeWords_wf hm, fun k b c hb hc => ?_⟩
  rw [← toNat_append_bytes b c, read_placeWords_last hm (getElem?_imageWords hb hc) rfl]
  intro l hkl hl hcell
  rw [length_imageWords] at hl
  have hmod := Option.some.inj hcell
  simp only [Config.memWords] at hmod
  omega

/-! ## Start-up (R211) -/

theorem loadImage_wf {bytes : List Byte} (hm : m.wf) (h : loadImage policy m bytes = some m') :
    m'.wf := by
  obtain ⟨image, -, rfl⟩ := Option.map_eq_some_iff.1 h
  exact placeWords_wf hm

theorem loadImages_wf {images : List (List Byte)} (hm : m.wf)
    (h : loadImages policy m images = some m') : m'.wf := by
  induction images generalizing m with
  | nil => exact Option.some.inj h ▸ hm
  | cons image images ih =>
    obtain ⟨u, hu, hrest⟩ := Option.bind_eq_some_iff.1 h
    exact ih (loadImage_wf hm hu) hrest

/-- Settles O17: the launch state is the reset state with the loaded memory and the supplied input. -/
theorem bootGivesALaunchState : Obligations.BootGivesALaunchState := by
  intro policy images input s h
  obtain ⟨m, hm, rfl⟩ := Option.map_eq_some_iff.1 h
  exact ⟨loadImages_wf Memory.nil_wf hm, rfl, rfl, rfl, State.reg_reset, rfl, rfl, rfl⟩

end Sys2Proof.Machine
end
